-- ==== Sys2Proof/Word.lean ====
section
/-! DEFINITION. The word types of the suffix-ranking comparator block (00_scope.md R7, R9; 30_encoding.md R91, R93).
A byte is a raw unsigned value `0 .. 255`; registers and `ORD` elements are `u32`; command and response words are 64 bits. -/

namespace Sys2Proof

/-- One raw byte, `u8` (00_scope.md R7, R12). -/
abbrev Byte := BitVec 8

/-- A `u16`: `ECAUSE` as 10_state.md R46 holds it, and the reserved field of a command word. -/
abbrev Half := BitVec 16

/-- A `u32`: a register, an `ORD` element, an immediate, a response value (10_state.md R20). -/
abbrev Word := BitVec 32

/-- A command word `CMD` or a response word `RSP` (30_encoding.md R91, R93). -/
abbrev Word64 := BitVec 64

end Sys2Proof
end

