-- ==== Sys2Proof/Config.lean ====
section
/-! DEFINITION. What one build of the block fixes: the largest block length, as an uninterpreted constant
(00_scope.md R6; 93_implementation_defined.md I9, P1). -/

namespace Sys2Proof

/-- How far this build's `NMAX` lies below the largest value 00_scope.md R6 allows (`2^32 - 5`). The constant has no
body, so no proof can learn it: a statement about the model holds for every build. `Sys2Proof.Machine.NMAX` is the
capacity itself. See assumption 1. -/
opaque Config.nmaxShortfall : Fin 4294967291

end Sys2Proof
end

