-- ==== Sys2Proof/Syntax.lean ====
section
/-! DEFINITION. The eighteen commands of 30_encoding.md R98 and the five formats of R92. -/

namespace Sys2Proof

/-- The five command formats (30_encoding.md R92). -/
inductive Format where
  /-- no operand -/
  | z
  /-- a byte in `IMM[7:0]` -/
  | b
  /-- a 32-bit value in `IMM` -/
  | w
  /-- a register number in `REG` -/
  | r
  /-- a register number in `REG` and a 32-bit value in `IMM` -/
  | rw
  deriving DecidableEq, Repr

/-- One constructor per row of the opcode map (30_encoding.md R98). A register operand is the whole 8-bit field `REG`
(R96): a number that names no register is a legal operand, refused when the command executes. -/
inductive Instr where
  /-- `NOP` (R120) -/
  | nop
  /-- `RESET` (R121) -/
  | reset
  /-- `CLR` (R122) -/
  | clr
  /-- `CLRERR` (R123) -/
  | clrerr
  /-- `SETR reg, imm32` (R124) -/
  | setr (reg : Byte) (imm32 : Word)
  /-- `GETR reg` (R125) -/
  | getr (reg : Byte)
  /-- `PUTB imm8` (R126) -/
  | putb (imm8 : Byte)
  /-- `GETB` (R127) -/
  | getb
  /-- `SRK.SORT` (R153) -/
  | srkSort
  /-- `SRK.RDORD imm32` (R160) -/
  | srkRdord (imm32 : Word)
  /-- `SRK.CHR` (R161) -/
  | srkChr
  /-- `SRK.CMP` (R162) -/
  | srkCmp
  /-- `SRK.CMPR` (R163) -/
  | srkCmpr
  /-- `BWT.FWD` (R182) -/
  | bwtFwd
  /-- `BWT.INV` (R186) -/
  | bwtInv
  /-- `MTF.INIT` (R211) -/
  | mtfInit
  /-- `MTF.ENC imm8` (R212) -/
  | mtfEnc (imm8 : Byte)
  /-- `MTF.DEC imm8` (R214) -/
  | mtfDec (imm8 : Byte)
  deriving DecidableEq, Repr

/-- The format of each command (30_encoding.md R92, R98). -/
def Instr.format : Instr → Format
  | .nop | .reset | .clr | .clrerr | .getb | .srkSort | .srkChr | .srkCmp | .srkCmpr | .bwtFwd | .bwtInv | .mtfInit => .z
  | .putb _ | .mtfEnc _ | .mtfDec _ => .b
  | .srkRdord _ => .w
  | .getr _ => .r
  | .setr _ _ => .rw

end Sys2Proof
end

