-- ==== Sys2Proof/Decode.lean ====
section
/-! DEFINITION. Command words and instructions: the fields of `CMD` (30_encoding.md R91), the decoder (R98 to R101) and
the encoder (R108). The decoder is total: every word is a command or is rejected by name. -/

namespace Sys2Proof

/-- The four fields of a command word (30_encoding.md R91). -/
structure CommandFields where
  /-- `CMD[63:56]` -/
  op : Byte
  /-- `CMD[55:48]` -/
  reg : Byte
  /-- `CMD[47:32]` -/
  rsv : Half
  /-- `CMD[31:0]` -/
  imm : Word
  deriving DecidableEq, Repr

/-- `OP = CMD[63:56]`. -/
def opField (w : Word64) : Byte := w.extractLsb' 56 8

/-- The fields of a word, each at the position R91 gives it. -/
def fieldsOf (w : Word64) : CommandFields :=
  ⟨opField w, w.extractLsb' 48 8, w.extractLsb' 32 16, w.extractLsb' 0 32⟩

/-- `CMD = {OP, REG, RSV, IMM}` (30_encoding.md R108). -/
def wordOf (f : CommandFields) : Word64 := f.op ++ f.reg ++ f.rsv ++ f.imm

/-- The byte operand of format B, `IMM[7:0]` (30_encoding.md R92, R95). -/
def byteOperand (f : CommandFields) : Byte := f.imm.extractLsb' 0 8

/-- Why a word is no command. -/
inductive DecodeReject where
  /-- the opcode is not in the map (30_encoding.md R99) -/
  | reservedOpcode
  /-- the opcode is in the map and a must-be-zero bit is 1 (30_encoding.md R100) -/
  | nonzeroField
  deriving DecidableEq, Repr

/-- The command of an opcode with its operands taken from their fields (30_encoding.md R95, R96, R98), or none for a
reserved opcode (R99). -/
def instrOf (f : CommandFields) : Option Instr :=
  match f.op.toNat with
  | 0x00 => some .nop
  | 0x01 => some .reset
  | 0x02 => some .clr
  | 0x03 => some .clrerr
  | 0x08 => some (.setr f.reg f.imm)
  | 0x09 => some (.getr f.reg)
  | 0x10 => some (.putb (byteOperand f))
  | 0x11 => some .getb
  | 0x20 => some .srkSort
  | 0x21 => some (.srkRdord f.imm)
  | 0x22 => some .srkChr
  | 0x23 => some .srkCmp
  | 0x24 => some .srkCmpr
  | 0x30 => some .bwtFwd
  | 0x31 => some .bwtInv
  | 0x40 => some .mtfInit
  | 0x41 => some (.mtfEnc (byteOperand f))
  | 0x42 => some (.mtfDec (byteOperand f))
  | _ => none

/-- The must-be-zero bits of the format are all zero (30_encoding.md R92). -/
def mustBeZeroOk (fmt : Format) (f : CommandFields) : Bool :=
  f.rsv == 0 &&
    match fmt with
    | .z => f.reg == 0 && f.imm == 0
    | .b => f.reg == 0 && f.imm.extractLsb' 8 24 == 0
    | .w => f.reg == 0
    | .r => f.imm == 0
    | .rw => true

/-- The decoder: first the opcode, then the must-be-zero bits (30_encoding.md R101). -/
def decode (w : Word64) : Except DecodeReject Instr :=
  match instrOf (fieldsOf w) with
  | none => .error .reservedOpcode
  | some i => if mustBeZeroOk i.format (fieldsOf w) then .ok i else .error .nonzeroField

/-- The opcode of each command (30_encoding.md R98). -/
def opcode : Instr → Byte
  | .nop => 0x00
  | .reset => 0x01
  | .clr => 0x02
  | .clrerr => 0x03
  | .setr _ _ => 0x08
  | .getr _ => 0x09
  | .putb _ => 0x10
  | .getb => 0x11
  | .srkSort => 0x20
  | .srkRdord _ => 0x21
  | .srkChr => 0x22
  | .srkCmp => 0x23
  | .srkCmpr => 0x24
  | .bwtFwd => 0x30
  | .bwtInv => 0x31
  | .mtfInit => 0x40
  | .mtfEnc _ => 0x41
  | .mtfDec _ => 0x42

/-- The field `REG` of a command: its register number, or 0 (30_encoding.md R108). -/
def regOperand : Instr → Byte
  | .setr reg _ | .getr reg => reg
  | .nop | .reset | .clr | .clrerr | .putb _ | .getb | .srkSort | .srkRdord _ | .srkChr | .srkCmp | .srkCmpr
  | .bwtFwd | .bwtInv | .mtfInit | .mtfEnc _ | .mtfDec _ => 0

/-- The field `IMM` of a command: its immediate, or 0 (30_encoding.md R108); a byte stands in `IMM[7:0]`. -/
def immOperand : Instr → Word
  | .setr _ imm | .srkRdord imm => imm
  | .putb b | .mtfEnc b | .mtfDec b => b.setWidth 32
  | .nop | .reset | .clr | .clrerr | .getr _ | .getb | .srkSort | .srkChr | .srkCmp | .srkCmpr
  | .bwtFwd | .bwtInv | .mtfInit => 0

/-- The word of a command, `CMD = {OP, REG, 0x0000, IMM}` (30_encoding.md R108). -/
def encode (i : Instr) : Word64 := wordOf ⟨opcode i, regOperand i, 0, immOperand i⟩

/-- The decoder on a word numbered as spec/opcode_table.json numbers it: a command is one 64-bit number (R91), so bit 0
is bit 0 and the bits from `nbits` up are zero. -/
def decodeTableWord (nbits w : Nat) : Option Instr :=
  match decode (BitVec.ofNat 64 (w % 2 ^ nbits)) with
  | .ok i => some i
  | .error _ => none

end Sys2Proof
end

