-- ==== Sys2Proof/Machine/State.lean ====
section
/-! DEFINITION. The state of one block: the record of 10_state.md R46, and the host's side of the transaction
(30_encoding.md R90): the commands and reset events it will present, in order, and the responses it has received. -/

namespace Sys2Proof.Machine

open Sys2Proof

/-- What the outside presents to the block, one at a time. -/
inductive HostEvent where
  /-- the host presents one command word (30_encoding.md R90) -/
  | command (cmd : Word64)
  /-- the platform asserts reset between two commands (70_reset_and_hazards.md R260) -/
  | reset
  /-- the platform asserts reset while the block runs this command, which is abandoned (70_reset_and_hazards.md R263) -/
  | resetDuring (cmd : Word64)
  deriving DecidableEq, Repr

/-- The state. `ILEN` and `OLEN` are the lengths of `ibuf` and `obuf`; `STATUS` and `CAP` are computed, not stored
(10_state.md R46). The working arrays of 10_state.md R43 and R44 are locals of one command. -/
structure State where
  /-- register 0, `N`: the declared block length (R21) -/
  n : Word
  /-- register 1, `FRI`: firstRowIndex (R22) -/
  fri : Word
  /-- register 2, `A`: first comparator operand (R23) -/
  a : Word
  /-- register 3, `B`: second comparator operand (R24) -/
  b : Word
  /-- register 4, `D`: comparator depth (R25) -/
  d : Word
  /-- `ORDV`, `STATUS[0]`: the suffix order is valid (R27) -/
  ordv : Bool
  /-- `ESTK`, `STATUS[1]`: sticky error (R28) -/
  estk : Bool
  /-- register 9, `ECAUSE[15:0]`: opcode and cause of the last error (R31) -/
  ecause : Half
  /-- `IBUF[0 .. ILEN)` (R37) -/
  ibuf : List Byte
  /-- `OBUF[0 .. OLEN)` (R38) -/
  obuf : List Byte
  /-- register 12, `ORP`: index of the next output byte (R34) -/
  orp : Word
  /-- `ORD[0 .. N)`, meaningful only when `ORDV = 1` (R39) -/
  ord : List Word
  /-- `MTFT[0 .. 256)` (R40) -/
  mtft : Vector Byte 256
  /-- what the host and the platform will present next, first first (30_encoding.md R90) -/
  inputs : List HostEvent
  /-- the response words returned so far, first first (30_encoding.md R90, R93) -/
  responses : List Word64
  deriving DecidableEq, Repr

/-- Nothing faults: every command word has a defined result in every state (30_encoding.md R90; 93_implementation_defined.md:
"Nothing in this block is treated as `stuck`"). An error of 60_exceptions.md is a next state with an error response. The
type has no constructor, so that no step can end in a fault: safe or unsafe does not arise. -/
inductive Fault where
  deriving DecidableEq, Repr

/-- Why the model gives an instruction no meaning. -/
inductive Refusal where
  /-- Raised by an arm of `exec` whose instruction has no meaning yet, and by nothing else. Safe: the model stops where
  the hardware goes on. No arm of `exec` raises it now. -/
  | notModelled (mnemonic : String)
  deriving DecidableEq, Repr

/-- The identity table, `MTFT[v] = v` (10_state.md R40). -/
def identityTable : Vector Byte 256 := Vector.ofFn fun v => BitVec.ofNat 8 v.val

/-- The state right after reset (10_state.md R47, 70_reset_and_hazards.md R260). The visible sequences are empty
(R262: "A model takes the three visible sequences as empty after reset and loses nothing"); the host has presented
nothing and received nothing. -/
def State.reset : State where
  n := 0
  fri := 0
  a := 0
  b := 0
  d := 0
  ordv := false
  estk := false
  ecause := 0
  ibuf := []
  obuf := []
  orp := 0
  ord := []
  mtft := identityTable
  inputs := []
  responses := []

end Sys2Proof.Machine
end

