-- ==== Sys2Proof/Machine/Flags.lean ====
section
/-! DEFINITION. The two flags and the two registers that show them: `ORDV`, `ESTK`, `STATUS`, `ECAUSE` (10_state.md R27 to
R31). There are no condition codes (R29). -/

namespace Sys2Proof.Machine

open Sys2Proof

/-- The suffix order is now that of the block in `IBUF` (10_state.md R27). -/
def setOrdv (s : State) : State := { s with ordv := true }

/-- The block has changed, so the suffix order is stale (10_state.md R27). -/
def clearOrdv (s : State) : State := { s with ordv := false }

/-- `STATUS = {30 zero bits, ESTK, ORDV}` (10_state.md R30). -/
def statusWord (s : State) : Word := 0#30 ++ BitVec.ofBool s.estk ++ BitVec.ofBool s.ordv

/-- `ECAUSE` of an error: opcode in bits 15 to 8, cause in bits 7 to 0 (10_state.md R31, 60_exceptions.md R239). -/
def ecauseOf (op cause : Byte) : Half := op ++ cause

/-- Record an error: `ESTK` set, `ECAUSE` overwritten (60_exceptions.md R239, R243). -/
def recordError (op cause : Byte) (s : State) : State := { s with estk := true, ecause := ecauseOf op cause }

/-- Clear the error record (40_system_and_buffer.md R123). -/
def clearError (s : State) : State := { s with estk := false, ecause := 0 }

end Sys2Proof.Machine
end

