-- ==== Sys2Proof/Machine/Operands.lean ====
section
/-! DEFINITION. Operands and results at the interface: register numbers (10_state.md R20, 30_encoding.md R96), result
values (R97), response words (R93) and the one byte order (20_memory.md R62). -/

namespace Sys2Proof.Machine

open Sys2Proof

/-- The registers of 10_state.md R20. -/
inductive Reg where
  | n | fri | a | b | d | status | ecause | ilen | olen | orp | cap
  deriving DecidableEq, Repr

/-- The register a number names; 5 to 7 and 14 to 255 name none (10_state.md R20, R35; 30_encoding.md R96). -/
def regOf (r : Byte) : Option Reg :=
  match r.toNat with
  | 0 => some .n
  | 1 => some .fri
  | 2 => some .a
  | 3 => some .b
  | 4 => some .d
  | 8 => some .status
  | 9 => some .ecause
  | 10 => some .ilen
  | 11 => some .olen
  | 12 => some .orp
  | 13 => some .cap
  | _ => none

/-- The number of a register, as an assembler line names it (10_state.md R20, 30_encoding.md R103). -/
def Reg.number : Reg → Byte
  | .n => 0
  | .fri => 1
  | .a => 2
  | .b => 3
  | .d => 4
  | .status => 8
  | .ecause => 9
  | .ilen => 10
  | .olen => 11
  | .orp => 12
  | .cap => 13

/-- The column "host access" of 10_state.md R20: only `N`, `A`, `B` and `D` can be written (40_system_and_buffer.md R124). -/
def Reg.writable : Reg → Bool
  | .n | .a | .b | .d => true
  | .fri | .status | .ecause | .ilen | .olen | .orp | .cap => false

/-- `zext_32` of a byte result (30_encoding.md R97). -/
def zext (b : Byte) : Word := b.setWidth 32

/-- A count or an index as a 32-bit number. -/
def word (k : Nat) : Word := BitVec.ofNat 32 k

/-- A three-way comparison result (30_encoding.md R97). -/
def threeWay : Ordering → Word
  | .lt => 0xFFFFFFFF
  | .eq => 0x00000000
  | .gt => 0x00000001

/-- A character as `SRK.CHR` returns it: `zext_32` of a byte, `0xFFFFFFFF` for the sentinel -1 (30_encoding.md R97). -/
def charWord (c : Int) : Word := if 0 ≤ c then word c.toNat else 0xFFFFFFFF

/-- `BE32(v)`: most significant byte first (00_scope.md R11, 20_memory.md R62). -/
def be32 (v : Word) : List Byte :=
  [v.extractLsb' 24 8, v.extractLsb' 16 8, v.extractLsb' 8 8, v.extractLsb' 0 8]

/-- The big-endian value of the first four bytes, byte 0 most significant (20_memory.md R62, 42_bwt_codec.md R185). Its
one caller has checked that there are four. -/
def ofBe32 (l : List Byte) : Word := l.getD 0 0 ++ l.getD 1 0 ++ l.getD 2 0 ++ l.getD 3 0

/-- The response of a command that succeeded: `ERR = 0`, `CAUSE = 0`, the value (30_encoding.md R93). -/
def rspOk (v : Word) : Word64 := 0#1 ++ 0#23 ++ 0#8 ++ v

/-- The response of a command that ended in an error: `ERR = 1`, the cause, value 0 (30_encoding.md R93). -/
def rspErr (cause : Byte) : Word64 := 1#1 ++ 0#23 ++ cause ++ 0#32

end Sys2Proof.Machine
end

