-- ==== Sys2Proof/Machine/Ops.lean ====
section
/-! DEFINITION. The operations every command is written over: the capacity, the cause codes, the response, taking an
error, reset, the registers, the buffers and the two input checks. -/

namespace Sys2Proof.Machine

open Sys2Proof

/-- `NMAX`, the largest block length: any value from 1 to `2^32 - 5`, fixed for the build and unknown (00_scope.md R6). -/
def NMAX : Nat := 4294967290 - Config.nmaxShortfall.val + 1

/-- The eleven causes of 60_exceptions.md R231. -/
inductive Cause where
  | iiEmpty | iiLength | iiIndex
  | icOpcode | icField | icReg | icValue | icOverflow | icUnderflow | icOrd | icOperand
  deriving DecidableEq, Repr

/-- The cause codes of 60_exceptions.md R231. -/
def Cause.code : Cause → Byte
  | .iiEmpty => 0x01
  | .iiLength => 0x02
  | .iiIndex => 0x03
  | .icOpcode => 0x10
  | .icField => 0x11
  | .icReg => 0x12
  | .icValue => 0x13
  | .icOverflow => 0x14
  | .icUnderflow => 0x15
  | .icOrd => 0x16
  | .icOperand => 0x17

/-- The cause of a word the decoder rejects (60_exceptions.md R235). -/
def rejectCause : DecodeReject → Cause
  | .reservedOpcode => .icOpcode
  | .nonzeroField => .icField

/-- Return one response word to the host (30_encoding.md R90). -/
def respond (rsp : Word64) (s : State) : State := { s with responses := s.responses ++ [rsp] }

/-- The command succeeds with this value (30_encoding.md R93; 0 for a command with no result). -/
def succeed (v : Word) (s : State) : State := respond (rspOk v) s

/-- Taking an error, the block's one exception (60_exceptions.md R239): the record is written, the response carries the
cause, nothing else changes. Control goes nowhere, and there is no return from it (R242): the next command executes as
any other. -/
def raise (op : Byte) (c : Cause) (s : State) : State := respond (rspErr c.code) (recordError op c.code s)

/-- The reset state (70_reset_and_hazards.md R260) reached from a running system: what the host will present and what it
has received are the host's own and stay. -/
def resetBlock (s : State) : State := { State.reset with inputs := s.inputs, responses := s.responses }

/-- `x[r]` for a read (10_state.md R20, R30 to R36; 40_system_and_buffer.md R125). -/
def readReg (r : Reg) (s : State) : Word :=
  match r with
  | .n => s.n
  | .fri => s.fri
  | .a => s.a
  | .b => s.b
  | .d => s.d
  | .status => statusWord s
  | .ecause => s.ecause.setWidth 32
  | .ilen => word s.ibuf.length
  | .olen => word s.obuf.length
  | .orp => s.orp
  | .cap => word NMAX

/-- `x[r] <- v`, and `ORDV <- 0` when `r = 0` (40_system_and_buffer.md R124). A register the host cannot write keeps its
value; its one caller has refused those. -/
def writeReg (r : Reg) (v : Word) (s : State) : State :=
  match r with
  | .n => clearOrdv { s with n := v }
  | .a => { s with a := v }
  | .b => { s with b := v }
  | .d => { s with d := v }
  | .fri | .status | .ecause | .ilen | .olen | .orp | .cap => s

/-- `IBUF[ILEN] <- b; ILEN <- ILEN + 1` (40_system_and_buffer.md R126). -/
def ibufAppend (b : Byte) (s : State) : State := { s with ibuf := s.ibuf ++ [b] }

/-- `OBUF[ORP]`, or nothing when no unread output remains (40_system_and_buffer.md R127). -/
def obufNext (s : State) : Option Byte := s.obuf[s.orp.toNat]?

/-- `ORP <- ORP + 1` (40_system_and_buffer.md R127). -/
def advanceOrp (s : State) : State := { s with orp := s.orp + 1 }

/-- Replace the whole output and start reading it at its first byte (10_state.md R34, R38). -/
def setOutput (bytes : List Byte) (s : State) : State := { s with obuf := bytes, orp := 0 }

/-- `ILEN <- 0; OLEN <- 0; ORP <- 0` (40_system_and_buffer.md R122). -/
def emptyBuffers (s : State) : State := { s with ibuf := [], obuf := [], orp := 0 }

/-- The block, `BLK[i] = IBUF[i]` for `i` in `[0, N)` (10_state.md R41). -/
def blk (s : State) : List Byte := s.ibuf.take s.n.toNat

/-- The last column, `LCOL[i] = IBUF[4 + i]` for `i` in `[0, N)` (10_state.md R41). -/
def lcol (s : State) : List Byte := (s.ibuf.drop 4).take s.n.toNat

/-- `BLKCHK` (41_suffix_ranker.md R152): the cause it raises, or none when the block may be used. -/
def blkchk (s : State) : Option Cause :=
  if s.ibuf.length ≠ s.n.toNat then some .iiLength
  else if s.n = 0 then some .iiEmpty
  else none

/-- `INVCHK` (42_bwt_codec.md R185): the cause it raises, or the firstRowIndex read from the input. `N + 4` is an integer
sum (40_system_and_buffer.md R130). -/
def invchk (s : State) : Except Cause Word :=
  if s.ibuf.length ≠ s.n.toNat + 4 then .error .iiLength
  else if s.n = 0 then .error .iiEmpty
  else if s.n ≤ ofBe32 s.ibuf then .error .iiIndex
  else .ok (ofBe32 s.ibuf)

end Sys2Proof.Machine
end

