-- ==== Sys2Proof/Machine/Buffer.lean ====
section
/-! DEFINITION. The buffer commands: `PUTB`, `GETB` (40_system_and_buffer.md R126, R127). -/

namespace Sys2Proof.Machine

open Sys2Proof

/-- `PUTB imm8` (R126). -/
def execPutb (b : Byte) (s : State) : Host.Outcome State Fault Refusal :=
  .next (if s.ibuf.length = NMAX + 4 then raise (opcode (.putb b)) .icOverflow s
    else succeed 0 (clearOrdv (ibufAppend b s)))

/-- `GETB` (R127). -/
def execGetb (s : State) : Host.Outcome State Fault Refusal :=
  match obufNext s with
  | none => .next (raise (opcode .getb) .icUnderflow s)
  | some v => .next (succeed (zext v) (advanceOrp s))

end Sys2Proof.Machine
end

