-- ==== Sys2Proof/Machine/SuffixRanker.lean ====
section
/-! DEFINITION. The SuffixRanker: the comparator (41_suffix_ranker.md R151), the three-way radix quicksort with an explicit
work stack (R153 to R157), and the commands `SRK.SORT`, `SRK.RDORD`, `SRK.CHR`, `SRK.CMP`, `SRK.CMPR`. -/

namespace Sys2Proof.Machine

open Sys2Proof

/-- Byte `t` of rotation `i`, `b[(i + t) mod n]`; the sum is an integer, never wrapped at `2^32` (40_system_and_buffer.md
R130 (d)). Every caller has `n >= 1`, so the index is in range. -/
def rotByte (b : List Byte) (i t : Nat) : Byte := b.getD ((i + t) % b.length) 0

/-- `charAt(b, i, d)`: a byte as an integer `0 .. 255`, or the sentinel `-1` when `d >= n` (00_scope.md R14). -/
def charAt (b : List Byte) (i d : Nat) : Int := if d < b.length then ((rotByte b i d).toNat : Int) else -1

/-- A pending range of the work stack (10_state.md R43). -/
structure Range where
  lo : Nat
  hi : Nat
  d : Nat
  deriving DecidableEq, Repr

/-- What the loop of `PARTITION` leaves: the order array and the ends of the `=` range. -/
structure Split where
  ord : List Nat
  lt : Nat
  gt : Nat
  deriving DecidableEq, Repr

/-- `swap(ORD[i], ORD[j])` (00_scope.md R15). -/
def swapAt (l : List Nat) (i j : Nat) : List Nat := (l.set i (l.getD j 0)).set j (l.getD i 0)

/-- The loop `while i <= gt` of `PARTITION` at depth `d` with pivot `v` (41_suffix_ranker.md R155). Each turn raises `i` or
lowers `gt`, so the first argument, the number of turns left, starts at `hi - lo`. -/
def partitionLoop (b : List Byte) (d : Nat) (v : Int) : Nat → List Nat → Nat → Nat → Nat → Split
  | 0, ord, lt, gt, _ => ⟨ord, lt, gt⟩
  | turns + 1, ord, lt, gt, i =>
    if i ≤ gt then
      if charAt b (ord.getD i 0) d < v then partitionLoop b d v turns (swapAt ord lt i) (lt + 1) gt (i + 1)
      else if v < charAt b (ord.getD i 0) d then partitionLoop b d v turns (swapAt ord i gt) lt (gt - 1) i
      else partitionLoop b d v turns ord lt gt (i + 1)
    else ⟨ord, lt, gt⟩

/-- The pivot of a range, `charAt(b, ORD[lo], d)` (41_suffix_ranker.md R155). -/
def pivot (b : List Byte) (ord : List Nat) (r : Range) : Int := charAt b (ord.getD r.lo 0) r.d

/-- `PARTITION(lo, hi, d)` up to its pushes (41_suffix_ranker.md R155). -/
def partition (b : List Byte) (ord : List Nat) (r : Range) : Split :=
  partitionLoop b r.d (pivot b ord r) (r.hi - r.lo) ord r.lo r.hi (r.lo + 1)

/-- What `PARTITION` pushes, top of stack first: the `<` range, the `=` range at the next depth but for the sentinel, the
`>` range; a range of fewer than two entries is not pushed (41_suffix_ranker.md R155, R156). -/
def pushes (v : Int) (p : Split) (r : Range) : List Range :=
  (if r.lo + 1 < p.lt then [⟨r.lo, p.lt - 1, r.d⟩] else []) ++
  ((if 0 ≤ v ∧ p.lt < p.gt then [⟨p.lt, p.gt, r.d + 1⟩] else []) ++
  (if p.gt + 1 < r.hi then [⟨p.gt + 1, r.hi, r.d⟩] else []))

/-- The sort between two partitions: the order array and the work stack, top first (41_suffix_ranker.md R156). -/
structure SortState where
  ord : List Nat
  stack : List Range
  deriving DecidableEq, Repr

/-- The sort before its first partition: the identity array, and the whole range when it has two entries
(41_suffix_ranker.md R153, R154). -/
def sortInit (b : List Byte) : SortState :=
  ⟨List.range b.length, if 2 ≤ b.length then [⟨0, b.length - 1, 0⟩] else []⟩

/-- One turn of `while SP > 0`: pop a range and partition it; with an empty stack the sort has ended
(41_suffix_ranker.md R153). -/
def sortTurn (b : List Byte) (q : SortState) : SortState :=
  match q.stack with
  | [] => q
  | r :: rest => ⟨(partition b q.ord r).ord, pushes (pivot b q.ord r) (partition b q.ord r) r ++ rest⟩

/-- The sort after at most so many partitions. -/
def sortRun (b : List Byte) : Nat → SortState → SortState
  | 0, q => q
  | turns + 1, q =>
    match q.stack with
    | [] => q
    | _ :: _ => sortRun b turns (sortTurn b q)

/-- The suffix order of a block: the array the sort leaves. At most `n * (n + 1)` partitions run, so that many turns reach
the end (41_suffix_ranker.md R157 (c)). -/
def suffixOrder (b : List Byte) : List Nat := (sortRun b (b.length * (b.length + 1)) (sortInit b)).ord

/-- Sort the loaded block into `ORD` and set `ORDV`, as `SRK.SORT` and `BWT.FWD` both do (41_suffix_ranker.md R153,
42_bwt_codec.md R182). -/
def sortBlock (s : State) : State := setOrdv { s with ord := (suffixOrder (blk s)).map word }

/-- `SRK.SORT` (R153). -/
def execSrkSort (s : State) : Host.Outcome State Fault Refusal :=
  match blkchk s with
  | some c => .next (raise (opcode .srkSort) c s)
  | none => .next (succeed 0 (sortBlock s))

/-- `ORD[k]` where it may be read: the order is valid and `k < N` (41_suffix_ranker.md R160). An element that is not there
is refused like an index outside `[0, N)` (40_system_and_buffer.md R132); see assumption 6. -/
def ordRead (k : Word) (s : State) : Option Word :=
  if s.ordv = false then none
  else if s.n ≤ k then none
  else s.ord[k.toNat]?

/-- `SRK.RDORD imm32` (R160). -/
def execSrkRdord (k : Word) (s : State) : Host.Outcome State Fault Refusal :=
  match ordRead k s with
  | none => .next (raise (opcode (.srkRdord k)) .icOrd s)
  | some v => .next (succeed v s)

/-- The checks of `SRK.CHR`: `BLKCHK`, then `A < N` (R161). -/
def chrCheck (s : State) : Option Cause :=
  match blkchk s with
  | some c => some c
  | none => if s.n ≤ s.a then some .icOperand else none

/-- The checks of `SRK.CMP` and `SRK.CMPR`: `BLKCHK`, then `A < N` and `B < N` (R162, R163). -/
def cmpCheck (s : State) : Option Cause :=
  match blkchk s with
  | some c => some c
  | none => if s.n ≤ s.a ∨ s.n ≤ s.b then some .icOperand else none

/-- `SRK.CHR` (R161). -/
def execSrkChr (s : State) : Host.Outcome State Fault Refusal :=
  match chrCheck s with
  | some c => .next (raise (opcode .srkChr) c s)
  | none => .next (succeed (charWord (charAt (blk s) s.a.toNat s.d.toNat)) s)

/-- The comparator at depth `d` for two rotations (41_suffix_ranker.md R151). -/
def compareAt (b : List Byte) (i j d : Nat) : Ordering := compare (charAt b i d) (charAt b j d)

/-- `SRK.CMP` (R162). -/
def execSrkCmp (s : State) : Host.Outcome State Fault Refusal :=
  match cmpCheck s with
  | some c => .next (raise (opcode .srkCmp) c s)
  | none => .next (succeed (threeWay (compareAt (blk s) s.a.toNat s.b.toNat s.d.toNat)) s)

/-- The loop of `SRK.CMPR`: so many positions from position `t` on (41_suffix_ranker.md R163). -/
def compareFrom (b : List Byte) (i j : Nat) : Nat → Nat → Ordering
  | 0, _ => .eq
  | left + 1, t =>
    if (rotByte b i t).toNat < (rotByte b j t).toNat then .lt
    else if (rotByte b j t).toNat < (rotByte b i t).toNat then .gt
    else compareFrom b i j left (t + 1)

/-- The circular lexicographic comparison of `rot(b, i)` with `rot(b, j)` (41_suffix_ranker.md R163). -/
def compareRotations (b : List Byte) (i j : Nat) : Ordering := compareFrom b i j b.length 0

/-- `SRK.CMPR` (R163). -/
def execSrkCmpr (s : State) : Host.Outcome State Fault Refusal :=
  match cmpCheck s with
  | some c => .next (raise (opcode .srkCmpr) c s)
  | none => .next (succeed (threeWay (compareRotations (blk s) s.a.toNat s.b.toNat)) s)

end Sys2Proof.Machine
end

