-- ==== Sys2Proof/Machine/BwtCodec.lean ====
section
/-! DEFINITION. The BWTCodec: the forward transform over the suffix order (42_bwt_codec.md R181, R182) and the inverse by
occurrence counting, the `next` permutation and an `n`-step walk (R185 to R190). -/

namespace Sys2Proof.Machine

open Sys2Proof

/-- `firstRowIndex`: the position `k` with `order[k] = 0` (42_bwt_codec.md R181). -/
def firstRowIndex (order : List Nat) : Nat := order.idxOf 0

/-- `lastColumn[k] = block[(order[k] + n - 1) mod n]` (42_bwt_codec.md R181). -/
def lastColumn (b : List Byte) (order : List Nat) : List Byte := order.map fun r => rotByte b r (b.length - 1)

/-- The serialised pair: the big-endian index, then the last column (42_bwt_codec.md R182, 20_memory.md R62). -/
def serialise (fri : Word) (column : List Byte) : List Byte := be32 fri ++ column

/-- `BWT.FWD` (R182). It always sorts again and never reuses an earlier order (90_conflicts.md C8). -/
def execBwtFwd (s : State) : Host.Outcome State Fault Refusal :=
  match blkchk s with
  | some c => .next (raise (opcode .bwtFwd) c s)
  | none =>
    let fri := word (firstRowIndex (suffixOrder (blk s)))
    .next (succeed 0 (setOutput (serialise fri (lastColumn (blk s) (suffixOrder (blk s)))) { sortBlock s with fri := fri }))

/-- The counters after the first two loops of 42_bwt_codec.md R189: `CNT[c + 1]` holds the occurrences of `c`. -/
def countOccurrences (L : List Byte) : List Nat :=
  L.foldl (fun cnt c => cnt.set (c.toNat + 1) (cnt.getD (c.toNat + 1) 0 + 1)) (List.replicate 257 0)

/-- The third loop of 42_bwt_codec.md R189: `CNT[c + 1] <- CNT[c + 1] + CNT[c]`, after which `CNT[c] = start(c)`. -/
def accumulate (cnt : List Nat) : List Nat :=
  (List.range 256).foldl (fun cnt c => cnt.set (c + 1) (cnt.getD (c + 1) 0 + cnt.getD c 0)) cnt

/-- The working arrays of `BWT.INV` (10_state.md R44). -/
structure InverseArrays where
  scol : List Byte
  nxt : List Nat
  cnt : List Nat
  deriving DecidableEq, Repr

/-- One turn of the last loop of 42_bwt_codec.md R189: place `L[i]` at its counter's position. -/
def placeByte (L : List Byte) (w : InverseArrays) (i : Nat) : InverseArrays :=
  let c := L.getD i 0
  let pos := w.cnt.getD c.toNat 0
  ⟨w.scol.set pos c, w.nxt.set pos i, w.cnt.set c.toNat (pos + 1)⟩

/-- `sortedColumn` and `next` by the offset table (42_bwt_codec.md R189, decision D21). -/
def inverseArrays (L : List Byte) : InverseArrays :=
  (List.range L.length).foldl (placeByte L)
    ⟨List.replicate L.length 0, List.replicate L.length 0, accumulate (countOccurrences L)⟩

/-- The walk: so many steps from `cur` (42_bwt_codec.md R190). -/
def walk (scol : List Byte) (nxt : List Nat) : Nat → Nat → List Byte
  | 0, _ => []
  | steps + 1, cur => scol.getD cur 0 :: walk scol nxt steps (nxt.getD cur 0)

/-- The block rebuilt from a pair (42_bwt_codec.md R186, R190). -/
def inverseTransform (f : Nat) (L : List Byte) : List Byte :=
  walk (inverseArrays L).scol (inverseArrays L).nxt L.length f

/-- `BWT.INV` (R186). -/
def execBwtInv (s : State) : Host.Outcome State Fault Refusal :=
  match invchk s with
  | .error c => .next (raise (opcode .bwtInv) c s)
  | .ok f => .next (succeed 0 (setOutput (inverseTransform f.toNat (lcol s)) { s with fri := f }))

end Sys2Proof.Machine
end

