-- ==== Sys2Proof/Machine/MoveToFront.lean ====
section
/-! DEFINITION. The MoveToFrontCodec: one table, `MTFT`, and the commands `MTF.INIT`, `MTF.ENC`, `MTF.DEC`
(43_mtf_codec.md R211 to R214). -/

namespace Sys2Proof.Machine

open Sys2Proof

/-- `FRONTMOVE(i)`: entry `i` moves to the front, entries `0 .. i-1` move one place right, the rest stay
(43_mtf_codec.md R213; a shift, not an exchange: 90_conflicts.md C1). -/
def frontMove (t : Vector Byte 256) (i : Fin 256) : Vector Byte 256 :=
  Vector.ofFn fun j => if j.val = 0 then t[i.val] else if j.val ≤ i.val then t[j.val - 1] else t[j.val]

/-- The table position an index operand names: every byte names one (43_mtf_codec.md R214). -/
def tableIndex (i : Byte) : Fin 256 := i.toFin

/-- The linear scan of 43_mtf_codec.md R212: the position of `b`. The table is a permutation (R216), so a byte that is not
among the first 255 entries is the last one; see assumption 7. -/
def tableFind (t : Vector Byte 256) (b : Byte) : Fin 256 :=
  ((List.finRange 256).find? fun i => t[i.val] == b).getD 255

/-- `MTF.INIT` (R211). -/
def execMtfInit (s : State) : Host.Outcome State Fault Refusal := .next (succeed 0 { s with mtft := identityTable })

/-- `MTF.ENC imm8` (R212). -/
def execMtfEnc (b : Byte) (s : State) : Host.Outcome State Fault Refusal :=
  let i := tableFind s.mtft b
  .next (succeed (word i.val) { s with mtft := frontMove s.mtft i })

/-- `MTF.DEC imm8` (R214). -/
def execMtfDec (i : Byte) (s : State) : Host.Outcome State Fault Refusal :=
  .next (succeed (zext s.mtft[(tableIndex i).val]) { s with mtft := frontMove s.mtft (tableIndex i) })

end Sys2Proof.Machine
end

