-- ==== Sys2Proof/Machine/System.lean ====
section
/-! DEFINITION. The system and register commands: `NOP`, `RESET`, `CLR`, `CLRERR`, `SETR`, `GETR`
(40_system_and_buffer.md R120 to R125, R133). -/

namespace Sys2Proof.Machine

open Sys2Proof

/-- `NOP` (R120). -/
def execNop (s : State) : Host.Outcome State Fault Refusal := .next (succeed 0 s)

/-- `RESET` (R121). -/
def execReset (s : State) : Host.Outcome State Fault Refusal := .next (succeed 0 (resetBlock s))

/-- `CLR` (R122). -/
def execClr (s : State) : Host.Outcome State Fault Refusal := .next (succeed 0 (clearOrdv (emptyBuffers s)))

/-- `CLRERR` (R123). -/
def execClrerr (s : State) : Host.Outcome State Fault Refusal := .next (succeed 0 (clearError s))

/-- `SETR reg, imm32` (R124): a reserved number, then a read-only register, then a length above `NMAX`. -/
def execSetr (reg : Byte) (v : Word) (s : State) : Host.Outcome State Fault Refusal :=
  match regOf reg with
  | none => .next (raise (opcode (.setr reg v)) .icReg s)
  | some r =>
    if r.writable = false then .next (raise (opcode (.setr reg v)) .icReg s)
    else .next (if r = .n ∧ NMAX < v.toNat then raise (opcode (.setr reg v)) .icValue s
      else succeed 0 (writeReg r v s))

/-- `GETR reg` (R125). -/
def execGetr (reg : Byte) (s : State) : Host.Outcome State Fault Refusal :=
  match regOf reg with
  | none => .next (raise (opcode (.getr reg)) .icReg s)
  | some r => .next (succeed (readReg r s) s)

end Sys2Proof.Machine
end

