-- ==== Sys2Proof/Machine/Dispatch.lean ====
section
/-! DEFINITION. One arm per command: each calls its own meaning. -/

namespace Sys2Proof.Machine

open Sys2Proof

def exec (i : Instr) (s : State) : Host.Outcome State Fault Refusal :=
  match i with
  | .nop => Sys2Proof.Machine.execNop s
  | .reset => Sys2Proof.Machine.execReset s
  | .clr => Sys2Proof.Machine.execClr s
  | .clrerr => Sys2Proof.Machine.execClrerr s
  | .setr reg imm => Sys2Proof.Machine.execSetr reg imm s
  | .getr reg => Sys2Proof.Machine.execGetr reg s
  | .putb b => Sys2Proof.Machine.execPutb b s
  | .getb => Sys2Proof.Machine.execGetb s
  | .srkSort => Sys2Proof.Machine.execSrkSort s
  | .srkRdord k => Sys2Proof.Machine.execSrkRdord k s
  | .srkChr => Sys2Proof.Machine.execSrkChr s
  | .srkCmp => Sys2Proof.Machine.execSrkCmp s
  | .srkCmpr => Sys2Proof.Machine.execSrkCmpr s
  | .bwtFwd => Sys2Proof.Machine.execBwtFwd s
  | .bwtInv => Sys2Proof.Machine.execBwtInv s
  | .mtfInit => Sys2Proof.Machine.execMtfInit s
  | .mtfEnc b => Sys2Proof.Machine.execMtfEnc b s
  | .mtfDec k => Sys2Proof.Machine.execMtfDec k s

end Sys2Proof.Machine
end

