-- ==== Sys2Proof/Machine/Transaction.lean ====
section
/-! DEFINITION. One transaction (30_encoding.md R90): decode the presented word and execute it, or raise the decode error
(60_exceptions.md R235, R237). -/

namespace Sys2Proof.Machine

open Sys2Proof

/-- The block's answer to one command word: the command's own meaning, or `IC_OPCODE` or `IC_FIELD` with the word's opcode
field in `ECAUSE` (30_encoding.md R99, R100; 60_exceptions.md R239). -/
def transact (cmd : Word64) (s : State) : Host.Outcome State Fault Refusal :=
  match decode cmd with
  | .ok i => exec i s
  | .error e => .next (raise (opField cmd) (rejectCause e) s)

/-- What one presented event does. A reset event, alone or in the middle of a command, leaves the reset state and returns
no response (70_reset_and_hazards.md R260, R263). -/
def accept (e : HostEvent) (s : State) : Host.Outcome State Fault Refusal :=
  match e with
  | .command cmd => transact cmd s
  | .reset => .next (resetBlock s)
  | .resetDuring _ => .next (resetBlock s)

/-- Put a command word first in what the host presents. -/
def present (cmd : Word64) (s : State) : State := { s with inputs := .command cmd :: s.inputs }

end Sys2Proof.Machine
end

