-- ==== Sys2Proof/Machine/Step.lean ====
section
/-! DEFINITION. One step: the block takes the next presented event, or waits (30_encoding.md R90, 70_reset_and_hazards.md
R261: "After reset it waits for the first command"). -/

namespace Sys2Proof.Machine

open Sys2Proof

/-- One step. The event leaves the host's list and takes its whole effect (20_memory.md R70). With nothing presented the
block is idle and holds all its state (60_exceptions.md, section 9). -/
def step (s : State) : Host.Outcome State Fault Refusal :=
  match s.inputs with
  | [] => .next s
  | e :: rest => accept e { s with inputs := rest }

/-- The state with this command word presented next; a word is one 64-bit number (30_encoding.md R91). -/
def State.withFetchWord (s : State) (nbits w : Nat) : State := present (BitVec.ofNat 64 (w % 2 ^ nbits)) s

end Sys2Proof.Machine
end

