-- ==== Sys2Proof/Machine/Protocol.lean ====
section
/-! DEFINITION. The host's command lists: the pseudo-instructions of 30_encoding.md R104 to R107, which are the loading
protocols of 40_system_and_buffer.md R128, and a list of commands executed in order (20_memory.md R70). The step does
not use this file. -/

namespace Sys2Proof.Machine

open Sys2Proof

/-- `PUTS`: one `PUTB` a byte, in order (30_encoding.md R104). -/
def puts (bytes : List Byte) : List Instr := bytes.map Instr.putb

/-- `PUTW v`: the big-endian serialisation of `v` (30_encoding.md R105). -/
def putw (v : Word) : List Instr := puts (be32 v)

/-- `LOADBLK`: load a block for `SRK.*` and `BWT.FWD` (30_encoding.md R106). -/
def loadBlk (block : List Byte) : List Instr :=
  [.clr, .setr Reg.n.number (word block.length)] ++ puts block

/-- `LOADBWT f, s`: load the serialised pair for `BWT.INV` (30_encoding.md R106). -/
def loadBwt (f : Word) (column : List Byte) : List Instr :=
  [.clr, .setr Reg.n.number (word column.length)] ++ (putw f ++ puts column)

/-- `GETBS k` (30_encoding.md R107). -/
def getBs (k : Nat) : List Instr := List.replicate k .getb

/-- A list of commands executed one after the other, each seeing the whole effect of every earlier one (20_memory.md
R70). -/
def execAll : List Instr → State → Host.Outcome State Fault Refusal
  | [], s => .next s
  | i :: rest, s =>
    match exec i s with
    | .next t => execAll rest t
    | .fault f => .fault f
    | .refused r => .refused r

end Sys2Proof.Machine
end

