-- ==== Sys2Proof/WellFormed.lean ====
section
/-! DEFINITION. Which 64-bit words are commands: the `match` and `mask` table of 30_encoding.md R98, as the spec prints
it. A term of `Instr` carries operands of the exact width its format gives them, so every term has a word; what can be
ill formed is a word. The decoder of Decode.lean is written from the field table of R92 and does not use this file:
that the two agree is a statement (Obligations.DecoderAcceptsExactlyTheMaskMatchRows). -/

namespace Sys2Proof

/-- One row of the opcode map: a word `w` is the command of the row when `w &&& mask = pattern`. -/
structure OpcodeRow where
  /-- the row's mnemonic -/
  mnemonic : String
  /-- the column `format` -/
  format : Format
  /-- the column `match` -/
  pattern : Word64
  /-- the column `mask` -/
  mask : Word64
  deriving DecidableEq, Repr

/-- The opcode map of 30_encoding.md R98, row by row. -/
def opcodeRows : List OpcodeRow :=
  [⟨"NOP", .z, 0x0000000000000000, 0xFFFFFFFFFFFFFFFF⟩,
   ⟨"RESET", .z, 0x0100000000000000, 0xFFFFFFFFFFFFFFFF⟩,
   ⟨"CLR", .z, 0x0200000000000000, 0xFFFFFFFFFFFFFFFF⟩,
   ⟨"CLRERR", .z, 0x0300000000000000, 0xFFFFFFFFFFFFFFFF⟩,
   ⟨"SETR", .rw, 0x0800000000000000, 0xFF00FFFF00000000⟩,
   ⟨"GETR", .r, 0x0900000000000000, 0xFF00FFFFFFFFFFFF⟩,
   ⟨"PUTB", .b, 0x1000000000000000, 0xFFFFFFFFFFFFFF00⟩,
   ⟨"GETB", .z, 0x1100000000000000, 0xFFFFFFFFFFFFFFFF⟩,
   ⟨"SRK.SORT", .z, 0x2000000000000000, 0xFFFFFFFFFFFFFFFF⟩,
   ⟨"SRK.RDORD", .w, 0x2100000000000000, 0xFFFFFFFF00000000⟩,
   ⟨"SRK.CHR", .z, 0x2200000000000000, 0xFFFFFFFFFFFFFFFF⟩,
   ⟨"SRK.CMP", .z, 0x2300000000000000, 0xFFFFFFFFFFFFFFFF⟩,
   ⟨"SRK.CMPR", .z, 0x2400000000000000, 0xFFFFFFFFFFFFFFFF⟩] ++
  [⟨"BWT.FWD", .z, 0x3000000000000000, 0xFFFFFFFFFFFFFFFF⟩,
   ⟨"BWT.INV", .z, 0x3100000000000000, 0xFFFFFFFFFFFFFFFF⟩,
   ⟨"MTF.INIT", .z, 0x4000000000000000, 0xFFFFFFFFFFFFFFFF⟩,
   ⟨"MTF.ENC", .b, 0x4100000000000000, 0xFFFFFFFFFFFFFF00⟩,
   ⟨"MTF.DEC", .b, 0x4200000000000000, 0xFFFFFFFFFFFFFF00⟩]

/-- The mnemonic of each command, letter for letter as the map spells it (30_encoding.md R98). -/
def Instr.mnemonic : Instr → String
  | .nop => "NOP"
  | .reset => "RESET"
  | .clr => "CLR"
  | .clrerr => "CLRERR"
  | .setr _ _ => "SETR"
  | .getr _ => "GETR"
  | .putb _ => "PUTB"
  | .getb => "GETB"
  | .srkSort => "SRK.SORT"
  | .srkRdord _ => "SRK.RDORD"
  | .srkChr => "SRK.CHR"
  | .srkCmp => "SRK.CMP"
  | .srkCmpr => "SRK.CMPR"
  | .bwtFwd => "BWT.FWD"
  | .bwtInv => "BWT.INV"
  | .mtfInit => "MTF.INIT"
  | .mtfEnc _ => "MTF.ENC"
  | .mtfDec _ => "MTF.DEC"

/-- The word is the command of this row (30_encoding.md R98: "a word `w` is the command of a row when
`w & mask = match`"). -/
def OpcodeRow.covers (r : OpcodeRow) (w : Word64) : Bool := w &&& r.mask == r.pattern

/-- The row whose opcode field the word has, if any: a word with a reserved opcode has none (30_encoding.md R99). -/
def rowOfOpcode (w : Word64) : Option OpcodeRow :=
  opcodeRows.find? fun r => r.pattern.extractLsb' 56 8 == w.extractLsb' 56 8

/-- The word is one of the eighteen commands, its must-be-zero bits all zero (30_encoding.md R98, R100). -/
def wellFormedCommand (w : Word64) : Bool := opcodeRows.any fun r => r.covers w

end Sys2Proof
end

