-- ==== Sys2Proof/Safety.lean ====
section
/-! DEFINITION. What a safe run is, and the notions of the spec that the statements are written in: the invariant of the
state, rotations and suffix orders (00_scope.md R14, R16), the sorted column and the `next` permutation
(42_bwt_codec.md R187, R188), and the shape of a response word (30_encoding.md R93). No step uses this file. -/

namespace Sys2Proof.Machine

open Sys2Proof

/-! ## The invariant -/

/-- The buffers keep their form: each holds only its valid part, no longer than its capacity, and the read pointer lies in
the output (10_state.md R32 to R34, R37, R38). A sequence is its valid part and nothing else, so equal contents are equal
data. -/
abbrev Memory.wf (s : State) : Prop :=
  s.ibuf.length ≤ NMAX + 4 ∧ s.obuf.length ≤ NMAX + 4 ∧ s.orp.toNat ≤ s.obuf.length

/-- The table holds every byte value once (10_state.md R40, 43_mtf_codec.md R216). -/
abbrev IsByteTable (t : Vector Byte 256) : Prop := t.toList.Perm identityTable.toList

/-- What holds in every state a run from reset reaches. -/
structure Inv (s : State) : Prop where
  /-- `N` is at most `NMAX` (10_state.md R21) -/
  declared : s.n.toNat ≤ NMAX
  /-- `FRI` is a row index of some block that fits (10_state.md R22) -/
  firstRow : s.fri.toNat < NMAX
  /-- the buffers keep their form -/
  buffers : Memory.wf s
  /-- a valid order is that of the block now loaded (10_state.md R27, R39) -/
  order : s.ordv = true →
    1 ≤ s.n.toNat ∧ s.ibuf.length = s.n.toNat ∧ s.ord = (suffixOrder (blk s)).map word
  /-- the table is a permutation of `0 .. 255` (10_state.md R40) -/
  table : IsByteTable s.mtft
  /-- no error recorded, no cause shown (10_state.md R31) -/
  noError : s.estk = false → s.ecause = 0
  /-- an error recorded shows one of the cause codes (60_exceptions.md R231) -/
  someError : s.estk = true → ∃ c : Cause, s.ecause.extractLsb' 0 8 = c.code

/-- A run that ends here recorded no error since the record was last cleared (60_exceptions.md R243: "a claim about a
command sequence that wants no fault recorded takes `ESTK = 0` at its end"). -/
def Safe (s : State) : Prop := Inv s ∧ s.estk = false

/-! ## Rotations and suffix orders -/

/-- `rot(b, i) = rot(b, j)` (00_scope.md R14). -/
def RotEq (b : List Byte) (i j : Nat) : Prop :=
  ∀ t, t < b.length → b[(i + t) % b.length]? = b[(j + t) % b.length]?

/-- `rot(b, i) < rot(b, j)` in lexicographic order of raw bytes (00_scope.md R12, R14): at the first position where they
differ the byte of `i` is the smaller. -/
def RotLt (b : List Byte) (i j : Nat) : Prop :=
  ∃ t, t < b.length ∧ (∀ u, u < t → b[(i + u) % b.length]? = b[(j + u) % b.length]?) ∧
    ∃ x y : Byte, b[(i + t) % b.length]? = some x ∧ b[(j + t) % b.length]? = some y ∧ x.toNat < y.toNat

/-- `rot(b, i) <= rot(b, j)` (00_scope.md R14). -/
def RotLe (b : List Byte) (i j : Nat) : Prop := RotLt b i j ∨ RotEq b i j

/-- A suffix order of `b`: a permutation of `[0, n)` that lists the rotations in non-decreasing order (00_scope.md R16,
41_suffix_ranker.md R150). -/
def IsSuffixOrder (b : List Byte) (order : List Nat) : Prop :=
  order.Perm (List.range b.length) ∧
    ∀ k i j, order[k]? = some i → order[k + 1]? = some j → RotLe b i j

/-- A block is periodic when two different rotations are equal (00_scope.md R16). -/
def Periodic (b : List Byte) : Prop := ∃ i j, i < b.length ∧ j < b.length ∧ i ≠ j ∧ RotEq b i j

/-! ## The inverse transform -/

/-- `start(c)`: how many bytes of `L` are below `c` (42_bwt_codec.md R187). -/
def startOf (L : List Byte) (c : Byte) : Nat := L.countP fun x => decide (x.toNat < c.toNat)

/-- `S` is `sortedColumn` of `L`: the bytes of `L` in non-decreasing unsigned order (42_bwt_codec.md R187). -/
def IsSortedColumn (L S : List Byte) : Prop := S.Perm L ∧ S.Pairwise fun x y => x.toNat ≤ y.toNat

/-- `nxt` is the `next` permutation of `L` with sorted column `S`: entry `i`, with `c = S[i]` and `r = i - start(c)`, is the
position in `L` of the occurrence of `c` that has exactly `r` occurrences of `c` before it (42_bwt_codec.md R188). -/
def IsNext (L S : List Byte) (nxt : List Nat) : Prop :=
  nxt.length = L.length ∧
    ∀ i c, S[i]? = some c →
      ∃ p, nxt[i]? = some p ∧ L[p]? = some c ∧ startOf L c ≤ i ∧ (L.take p).count c = i - startOf L c

/-- `next` by one growable buffer per byte value: for each value in ascending order, the positions of `L` that hold it, in
ascending order (42_bwt_codec.md R188, R189). -/
def bucketNext (L : List Byte) : List Nat :=
  (List.range 256).flatMap fun c => (List.range L.length).filter fun i => decide (L[i]? = some (BitVec.ofNat 8 c))

/-! ## The two ends of a command -/

/-- The state after a command that succeeds with this value from `s`, its other effects already in `s`: one response, the
value zero-extended to 64 bits (30_encoding.md R93). -/
def afterOk (s : State) (v : Word) : State := { s with responses := s.responses ++ [v.setWidth 64] }

/-- The state after a command with this opcode that raises this cause from `s` (60_exceptions.md R239): the error record,
the response `0x800000cc00000000` (30_encoding.md R93), and nothing else. -/
def afterError (s : State) (op cause : Byte) : State :=
  { s with
    estk := true
    ecause := op ++ cause
    responses := s.responses ++ [0x8000000000000000#64 ||| (cause.setWidth 64 <<< 32)] }

/-- The commands of the MTF unit (43_mtf_codec.md). -/
def IsMtf : Instr → Bool
  | .mtfInit | .mtfEnc _ | .mtfDec _ => true
  | .nop | .reset | .clr | .clrerr | .setr _ _ | .getr _ | .putb _ | .getb | .srkSort | .srkRdord _ | .srkChr | .srkCmp
  | .srkCmpr | .bwtFwd | .bwtInv => false

/-- The commands that return a result; the others return 0 (30_encoding.md R93, R97; 92_eei_decisions.md D26). -/
def HasResult : Instr → Bool
  | .getr _ | .getb | .srkRdord _ | .srkChr | .srkCmp | .srkCmpr | .mtfEnc _ | .mtfDec _ => true
  | .nop | .reset | .clr | .clrerr | .setr _ _ | .putb _ | .srkSort | .bwtFwd | .bwtInv | .mtfInit => false

/-- `ORDV` after a command that succeeded, from `ORDV` before it (10_state.md R27). -/
def ordvAfter : Instr → Bool → Bool
  | .srkSort, _ | .bwtFwd, _ => true
  | .reset, _ | .clr, _ | .putb _, _ => false
  | .setr reg _, old => if reg = 0 then false else old
  | .nop, old | .clrerr, old | .getr _, old | .getb, old | .srkRdord _, old | .srkChr, old | .srkCmp, old
  | .srkCmpr, old | .bwtInv, old | .mtfInit, old | .mtfEnc _, old | .mtfDec _, old => old

/-! ## Response words -/

/-- `RSP[63]`, `ERR`. -/
def errBit (r : Word64) : Bool := r.getLsbD 63

/-- `RSP[39:32]`, `CAUSE`. -/
def causeField (r : Word64) : Byte := r.extractLsb' 32 8

/-- `RSP[31:0]`, `VALUE`. -/
def valueField (r : Word64) : Word := r.extractLsb' 0 32

/-- The opcodes 30_encoding.md R99 lists as reserved. -/
abbrev ReservedOpcode (op : Nat) : Prop :=
  (0x04 ≤ op ∧ op ≤ 0x07) ∨ (0x0A ≤ op ∧ op ≤ 0x0F) ∨ (0x12 ≤ op ∧ op ≤ 0x1F) ∨ (0x25 ≤ op ∧ op ≤ 0x2F) ∨
    (0x32 ≤ op ∧ op ≤ 0x3F) ∨ (0x43 ≤ op ∧ op ≤ 0xFF)

end Sys2Proof.Machine
end

