-- ==== Sys2Proof/Certificates/Slice0/Obligations.lean ====
section
/-! DEFINITION. The statements for the provers. Each formalises numbered rules of spec/, named in its docstring; where the
Lean says an error or a result, it says it with the spec's own numbers. -/

open Sys2Proof Sys2Proof.Machine

/-! ## Command words -/

/-- R98, R108: no bit of an encoding is dropped, for any command and any operand. -/
def Obligations.EveryCommandDecodesFromItsWord : Prop := ∀ i : Instr, decode (encode i) = .ok i

/-- R98, R100, R101: a word that decodes has exactly one spelling, its command's. -/
def Obligations.EveryDecodedWordIsTheWordOfItsCommand : Prop :=
  ∀ (w : Word64) (i : Instr), decode w = .ok i → encode i = w

/-- R98: a word is the command of a row when `w & mask = match`, the rows have distinct opcodes, and a command's row is the
row of its own mnemonic and format. The decoder is written from the field table of R92 instead. -/
def Obligations.DecoderAcceptsExactlyTheMaskMatchRows : Prop :=
  (opcodeRows.map fun r => r.pattern.extractLsb' 56 8).Nodup ∧
  (∀ (w : Word64) (i : Instr), decode w = .ok i →
    ∃ r ∈ opcodeRows, w &&& r.mask = r.pattern ∧ r.mnemonic = i.mnemonic ∧ r.format = i.format) ∧
  ∀ (w : Word64), ∀ r ∈ opcodeRows, w &&& r.mask = r.pattern → ∃ i, decode w = .ok i ∧ i.mnemonic = r.mnemonic

/-- R99: a reserved opcode raises `IC_OPCODE` whatever the other bits are, in every state; there are 238 of them. -/
def Obligations.ReservedOpcodesRaiseIcOpcode : Prop :=
  ((List.range 256).filter fun op => decide (ReservedOpcode op)).length = 238 ∧
  ∀ (s : State) (w : Word64) (rest : List HostEvent),
    ReservedOpcode (w.extractLsb' 56 8).toNat → s.inputs = .command w :: rest →
      step s = .next (afterError { s with inputs := rest } (w.extractLsb' 56 8) 0x10)

/-- R100: a word whose opcode is in the map and whose must-be-zero bits are not all zero raises `IC_FIELD`. -/
def Obligations.NonzeroReservedBitsRaiseIcField : Prop :=
  ∀ (s : State) (w : Word64) (rest : List HostEvent), ∀ r ∈ opcodeRows,
    r.pattern.extractLsb' 56 8 = w.extractLsb' 56 8 → w &&& r.mask ≠ r.pattern → s.inputs = .command w :: rest →
      step s = .next (afterError { s with inputs := rest } (w.extractLsb' 56 8) 0x11)

/-- R108: the word of a line is `{OP, REG, 0x0000, IMM}`, and the spec's eight examples, each also read back. -/
def Obligations.CommandWordsOfTheSpecsExamples : Prop :=
  (∀ i : Instr, encode i = opcode i ++ regOperand i ++ 0x0000#16 ++ immOperand i) ∧
  (encode .nop = 0x0000000000000000 ∧ decode 0x0000000000000000 = .ok .nop) ∧
  (encode (.setr 0 12) = 0x080000000000000C ∧ decode 0x080000000000000C = .ok (.setr 0 12)) ∧
  (encode (.setr 2 3) = 0x0802000000000003 ∧ decode 0x0802000000000003 = .ok (.setr 2 3)) ∧
  (encode (.getr 1) = 0x0901000000000000 ∧ decode 0x0901000000000000 = .ok (.getr 1)) ∧
  (encode (.putb 0x41) = 0x1000000000000041 ∧ decode 0x1000000000000041 = .ok (.putb 0x41)) ∧
  (encode (.srkRdord 7) = 0x2100000000000007 ∧ decode 0x2100000000000007 = .ok (.srkRdord 7)) ∧
  (encode .bwtFwd = 0x3000000000000000 ∧ decode 0x3000000000000000 = .ok .bwtFwd) ∧
  (encode (.mtfEnc 66) = 0x4100000000000042 ∧ decode 0x4100000000000042 = .ok (.mtfEnc 66))

/-! ## The transaction, reset and waiting -/

/-- R70, R90: a step takes the next command word the host presents and runs the command it decodes to, at the state with
that word consumed; nothing stands around it. -/
def Obligations.StepRunsTheDecodedCommand : Prop :=
  ∀ (s : State) (w : Word64) (rest : List HostEvent) (i : Instr),
    s.inputs = .command w :: rest → decode w = .ok i → step s = exec i { s with inputs := rest }

/-- R90: the step is total, and every command returns exactly one response, but for a command cut short by the reset
event, which returns none. The model's choice, not R90's: a command is taken off the host's list of events and the rest of
the list stays, across `RESET` and the reset event too (assumption 2, DESIGN CHOICE, unsafe), and a command cut short is one
event (assumption 13, DEDUCED). -/
def Obligations.EveryPresentedCommandReturnsOneResponse : Prop :=
  (∀ (s : State) (w : Word64) (rest : List HostEvent), s.inputs = .command w :: rest →
    ∃ t r, step s = .next t ∧ t.responses = s.responses ++ [r] ∧ t.inputs = rest) ∧
  ∀ (s : State) (w : Word64) (rest : List HostEvent), s.inputs = .resetDuring w :: rest →
    ∃ t, step s = .next t ∧ t.responses = s.responses ∧ t.inputs = rest

/-- R93: the form of every response word: bits 62 to 40 zero; cause 0 on success; value 0 and one of the causes of R231 on
an error; value 0 from a command with no result. -/
def Obligations.ResponseWordsKeepTheirForm : Prop :=
  ∀ (s t : State) (w : Word64) (rest : List HostEvent), s.inputs = .command w :: rest → step s = .next t →
    ∃ r, t.responses = s.responses ++ [r] ∧ r.extractLsb' 40 23 = 0 ∧
      (errBit r = false → causeField r = 0) ∧
      (errBit r = true → valueField r = 0 ∧
        causeField r ∈ [0x01#8, 0x02#8, 0x03#8, 0x10#8, 0x11#8, 0x12#8, 0x13#8, 0x14#8, 0x15#8, 0x16#8, 0x17#8]) ∧
      ∀ i, decode w = .ok i → HasResult i = false → valueField r = 0

/-- R260, R263: the reset event, between commands or in the middle of one, leaves the reset state and returns no response;
every command it does not cut short returns one. The model's choice, not R263's: the host's lists of events to come and of
responses received are kept across the reset (assumption 2, DESIGN CHOICE, unsafe), the three visible sequences of the reset
state are empty (assumption 9, DEDUCED from R262), and a command cut short is one step, as if it had never begun
(assumption 13, DEDUCED). -/
def Obligations.ResetEventLeavesTheResetState : Prop :=
  (∀ (s : State) (rest : List HostEvent), s.inputs = .reset :: rest →
    step s = .next { State.reset with inputs := rest, responses := s.responses }) ∧
  (∀ (s : State) (w : Word64) (rest : List HostEvent), s.inputs = .resetDuring w :: rest →
    step s = .next { State.reset with inputs := rest, responses := s.responses }) ∧
  ∀ (s : State) (w : Word64) (rest : List HostEvent), s.inputs = .command w :: rest →
    ∃ t, step s = .next t ∧ t.responses.length = s.responses.length + 1

/-- R261: with nothing presented the block waits and holds all its state (assumption 3). -/
def Obligations.BlockWaitsForACommand : Prop := ∀ s : State, s.inputs = [] → step s = .next s

/-- R47: the reset values; the contents of `OBUF` and `ORD` cannot be read before a command writes them. -/
def Obligations.ResetStateHoldsTheSpecsValues : Prop :=
  State.reset.n = 0 ∧ State.reset.fri = 0 ∧ State.reset.a = 0 ∧ State.reset.b = 0 ∧ State.reset.d = 0 ∧
  State.reset.ordv = false ∧ State.reset.estk = false ∧ State.reset.ecause = 0 ∧
  State.reset.ibuf.length = 0 ∧ State.reset.obuf.length = 0 ∧ State.reset.orp = 0 ∧
  readReg .cap State.reset = BitVec.ofNat 32 NMAX ∧
  (∀ v : Fin 256, State.reset.mtft[v.val] = BitVec.ofNat 8 v.val) ∧
  exec .getb State.reset = .next (afterError State.reset 0x11 0x15) ∧
  ∀ k : Word, exec (.srkRdord k) State.reset = .next (afterError State.reset 0x21 0x16)

/-- R6, R36: `NMAX` lies in the range the spec allows, and `GETR CAP` returns it whole in every state. -/
def Obligations.CapacityIsInRangeAndReadable : Prop :=
  1 ≤ NMAX ∧ NMAX ≤ 2 ^ 32 - 5 ∧ (BitVec.ofNat 32 NMAX).toNat = NMAX ∧
  ∀ s : State, exec (.getr 13) s = .next (afterOk s (BitVec.ofNat 32 NMAX))

/-! ## System, register and buffer commands -/

/-- R120. -/
def Obligations.NopOnlyResponds : Prop := ∀ s : State, exec .nop s = .next (afterOk s 0)

/-- R121: `RESET` writes every piece of block state to its reset value and responds 0, the state of the reset event. The
model's choice, not R121's: the host's lists of events to come and of responses received are kept by both resets
(assumption 2, DESIGN CHOICE, unsafe), the three visible sequences of the reset state are empty (assumption 9, DEDUCED from
R262), and `RESET` empties `ORD` with the rest (assumption 10, DEDUCED). -/
def Obligations.ResetCommandEqualsTheResetEvent : Prop :=
  ∀ s : State,
    exec .reset s = .next (afterOk { State.reset with inputs := s.inputs, responses := s.responses } 0) ∧
    ∀ rest, step { s with inputs := .reset :: rest } =
      .next { State.reset with inputs := rest, responses := s.responses }

/-- R122, with its frame: `N`, `FRI`, `A`, `B`, `D`, `MTFT`, `ESTK` and `ECAUSE` are kept. -/
def Obligations.ClrEmptiesTheBuffers : Prop :=
  ∀ s : State, exec .clr s = .next (afterOk { s with ibuf := [], obuf := [], orp := 0, ordv := false } 0)

/-- R123, with its frame. -/
def Obligations.ClrerrClearsTheErrorRecord : Prop :=
  ∀ s : State, exec .clrerr s = .next (afterOk { s with estk := false, ecause := 0 } 0)

/-- R124: reserved and read-only numbers, a length above `NMAX`, and the four registers that can be written, each with its
frame. -/
def Obligations.SetrWritesOrRefuses : Prop :=
  ∀ (s : State) (v : Word),
    (∀ r : Byte, r ∉ [0#8, 2#8, 3#8, 4#8] → exec (.setr r v) s = .next (afterError s 0x08 0x12)) ∧
    (NMAX < v.toNat → exec (.setr 0 v) s = .next (afterError s 0x08 0x13)) ∧
    (v.toNat ≤ NMAX → exec (.setr 0 v) s = .next (afterOk { s with n := v, ordv := false } 0)) ∧
    exec (.setr 2 v) s = .next (afterOk { s with a := v } 0) ∧
    exec (.setr 3 v) s = .next (afterOk { s with b := v } 0) ∧
    exec (.setr 4 v) s = .next (afterOk { s with d := v } 0)

/-- R125: every register number, the reserved ones raising; reading changes nothing. -/
def Obligations.GetrReadsOrRefuses : Prop :=
  ∀ s : State,
    (∀ r : Byte, 5 ≤ r.toNat ∧ r.toNat ≤ 7 ∨ 14 ≤ r.toNat → exec (.getr r) s = .next (afterError s 0x09 0x12)) ∧
    exec (.getr 0) s = .next (afterOk s s.n) ∧
    exec (.getr 1) s = .next (afterOk s s.fri) ∧
    exec (.getr 2) s = .next (afterOk s s.a) ∧
    exec (.getr 3) s = .next (afterOk s s.b) ∧
    exec (.getr 4) s = .next (afterOk s s.d) ∧
    exec (.getr 8) s = .next (afterOk s (0#30 ++ BitVec.ofBool s.estk ++ BitVec.ofBool s.ordv)) ∧
    exec (.getr 9) s = .next (afterOk s (s.ecause.setWidth 32)) ∧
    exec (.getr 10) s = .next (afterOk s (BitVec.ofNat 32 s.ibuf.length)) ∧
    exec (.getr 11) s = .next (afterOk s (BitVec.ofNat 32 s.obuf.length)) ∧
    exec (.getr 12) s = .next (afterOk s s.orp) ∧
    exec (.getr 13) s = .next (afterOk s (BitVec.ofNat 32 NMAX))

/-- R126: overflow at `ILEN = NMAX + 4`; otherwise the byte is stored at `IBUF[ILEN]`, every byte below it reads as before,
and nothing else but `ORDV` changes. -/
def Obligations.PutbAppendsOrOverflows : Prop :=
  ∀ (s : State) (x : Byte),
    (s.ibuf.length = NMAX + 4 → exec (.putb x) s = .next (afterError s 0x10 0x14)) ∧
    (s.ibuf.length ≠ NMAX + 4 →
      ∃ t, exec (.putb x) s = .next t ∧ t = afterOk { s with ibuf := t.ibuf, ordv := false } 0 ∧
        t.ibuf.length = s.ibuf.length + 1 ∧ t.ibuf[s.ibuf.length]? = some x ∧
        ∀ i, i < s.ibuf.length → t.ibuf[i]? = s.ibuf[i]?)

/-- R127: underflow at `ORP = OLEN`; otherwise the byte at `ORP`, zero-extended, and `ORP` advances. -/
def Obligations.GetbReadsInOrderOrUnderflows : Prop :=
  ∀ s : State,
    (s.orp.toNat = s.obuf.length → exec .getb s = .next (afterError s 0x11 0x15)) ∧
    (s.orp.toNat < s.obuf.length →
      ∃ v, s.obuf[s.orp.toNat]? = some v ∧
        exec .getb s = .next (afterOk { s with orp := s.orp + 1 } (v.setWidth 32)))

/-! ## SuffixRanker -/

/-- R152: `BLKCHK`, made first by `SRK.SORT`, `SRK.CHR`, `SRK.CMP`, `SRK.CMPR` and `BWT.FWD`. -/
def Obligations.BlockCheckRaisesLengthThenEmpty : Prop :=
  ∀ s : State,
    (∀ i op, (i, op) ∈ [(Instr.srkSort, 0x20#8), (Instr.srkChr, 0x22#8), (Instr.srkCmp, 0x23#8), (Instr.srkCmpr, 0x24#8),
        (Instr.bwtFwd, 0x30#8)] →
      (s.ibuf.length ≠ s.n.toNat → exec i s = .next (afterError s op 0x02)) ∧
      (s.ibuf.length = s.n.toNat → s.n = 0 → exec i s = .next (afterError s op 0x01))) ∧
    (Inv s → s.ibuf.length = s.n.toNat → s.n ≠ 0 → 1 ≤ s.n.toNat ∧ s.n.toNat ≤ NMAX)

/-- R153, with its frame: the array the sort leaves for the loaded block goes to `ORD`, `ORDV` is set, and nothing else
changes. -/
def Obligations.SrkSortStoresTheSuffixOrder : Prop :=
  ∀ s : State, s.ibuf.length = s.n.toNat → s.n ≠ 0 →
    exec .srkSort s =
      .next (afterOk { s with ord := (suffixOrder s.ibuf).map (BitVec.ofNat 32), ordv := true } 0)

/-- R150: whatever the block, after a successful `SRK.SORT` the array `ORD` is a permutation of `[0, n)` that lists the
rotations in non-decreasing lexicographic order. -/
def Obligations.SrkSortLeavesASuffixOrder : Prop :=
  ∀ s : State, s.ibuf.length = s.n.toNat → s.n ≠ 0 →
    ∃ t order, exec .srkSort s = .next t ∧ IsSuffixOrder s.ibuf order ∧
      t.ord.map BitVec.toNat = order ∧ t.ibuf = s.ibuf ∧ t.n = s.n ∧ t.ordv = true

/-- R155: what one partition leaves: three ranges about the pivot, inside its own range of the array only. -/
def Obligations.PartitionSplitsItsRange : Prop :=
  ∀ (b : List Byte) (ord : List Nat) (r : Range), r.lo < r.hi → r.hi < ord.length →
    (partition b ord r).ord.Perm ord ∧
    r.lo ≤ (partition b ord r).lt ∧ (partition b ord r).lt ≤ (partition b ord r).gt ∧ (partition b ord r).gt ≤ r.hi ∧
    (∀ k x, (partition b ord r).ord[k]? = some x →
      (r.lo ≤ k → k < (partition b ord r).lt → charAt b x r.d < pivot b ord r) ∧
      ((partition b ord r).lt ≤ k → k ≤ (partition b ord r).gt → charAt b x r.d = pivot b ord r) ∧
      ((partition b ord r).gt < k → k ≤ r.hi → pivot b ord r < charAt b x r.d)) ∧
    ∀ k, k < r.lo ∨ r.hi < k → (partition b ord r).ord[k]? = ord[k]?

/-- R157 (a), (b): at every moment of the sort the pending ranges are pairwise disjoint, of at least two entries, at depth
at most `n`, and there are at most `n / 2` of them. -/
def Obligations.WorkStackHoldsDisjointRanges : Prop :=
  ∀ (b : List Byte) (turns : Nat),
    (sortRun b turns (sortInit b)).stack.length ≤ b.length / 2 ∧
    (∀ r ∈ (sortRun b turns (sortInit b)).stack, r.lo < r.hi ∧ r.hi < b.length ∧ r.d ≤ b.length) ∧
    (sortRun b turns (sortInit b)).stack.Pairwise fun r q => r.hi < q.lo ∨ q.hi < r.lo

/-- R157 (c): the sort ends: after `n * (n + 1)` partitions no range is pending. -/
def Obligations.SortEndsWithinItsPartitionBound : Prop :=
  ∀ b : List Byte, (sortRun b (b.length * (b.length + 1)) (sortInit b)).stack = []

/-- R153, R155, R159: the orders the spec prints, those of periodic blocks among them; the order of identical rotations
rests on the exchange sequence the spec takes from general knowledge (assumption 8). -/
def Obligations.SuffixOrdersOfTheSpecsExamples : Prop :=
  suffixOrder [0x41, 0x42, 0x52, 0x41, 0x43, 0x41, 0x44, 0x41, 0x42, 0x52, 0x41, 0x21] =
    [11, 10, 7, 0, 3, 5, 8, 1, 4, 6, 9, 2] ∧
  suffixOrder [0x41, 0x41] = [0, 1] ∧
  suffixOrder [0x41, 0x42, 0x41, 0x42] = [0, 2, 3, 1] ∧
  suffixOrder [0x42, 0x41, 0x42, 0x41] = [1, 3, 2, 0] ∧
  suffixOrder [0x41, 0x42, 0x41, 0x42, 0x41, 0x42] = [0, 4, 2, 3, 5, 1] ∧
  suffixOrder [0x43, 0x42, 0x41, 0x43, 0x42, 0x41] = [2, 5, 4, 1, 0, 3]

/-- R160: `IC_ORD` for a stale order and for an index outside `[0, N)`; otherwise the element is there and is returned, and
nothing changes. The invariant rules out states no run reaches, where a valid order has too few elements. -/
def Obligations.SrkRdordReadsTheOrder : Prop :=
  ∀ (s : State) (k : Word), Inv s →
    (s.ordv = false → exec (.srkRdord k) s = .next (afterError s 0x21 0x16)) ∧
    (s.n ≤ k → exec (.srkRdord k) s = .next (afterError s 0x21 0x16)) ∧
    (s.ordv = true → k < s.n →
      ∃ v, s.ord[k.toNat]? = some v ∧ exec (.srkRdord k) s = .next (afterOk s v))

/-- R161: `IC_OPERAND`, the sentinel, or the byte at `(A + D) mod n`, the sum not wrapped at `2^32`. -/
def Obligations.SrkChrReturnsTheCharacter : Prop :=
  ∀ s : State, s.ibuf.length = s.n.toNat → s.n ≠ 0 →
    (s.n ≤ s.a → exec .srkChr s = .next (afterError s 0x22 0x17)) ∧
    (s.a < s.n → s.n ≤ s.d → exec .srkChr s = .next (afterOk s 0xFFFFFFFF)) ∧
    (s.a < s.n → s.d < s.n →
      ∃ x, s.ibuf[(s.a.toNat + s.d.toNat) % s.n.toNat]? = some x ∧ exec .srkChr s = .next (afterOk s (x.setWidth 32)))

/-- R162: `IC_OPERAND`, equal at and beyond depth `n`, or the unsigned comparison of the two bytes at depth `D`. -/
def Obligations.SrkCmpComparesAtTheDepth : Prop :=
  ∀ s : State, s.ibuf.length = s.n.toNat → s.n ≠ 0 →
    (s.n ≤ s.a ∨ s.n ≤ s.b → exec .srkCmp s = .next (afterError s 0x23 0x17)) ∧
    (s.a < s.n → s.b < s.n → s.n ≤ s.d → exec .srkCmp s = .next (afterOk s 0)) ∧
    (s.a < s.n → s.b < s.n → s.d < s.n →
      ∃ x y, s.ibuf[(s.a.toNat + s.d.toNat) % s.n.toNat]? = some x ∧
        s.ibuf[(s.b.toNat + s.d.toNat) % s.n.toNat]? = some y ∧
        exec .srkCmp s = .next (afterOk s
          (if x.toNat < y.toNat then 0xFFFFFFFF else if y.toNat < x.toNat then 0x00000001 else 0x00000000)))

/-- R163: `IC_OPERAND`, or less, greater, equal as the two rotations compare in lexicographic order; one of the three always
holds. -/
def Obligations.SrkCmprComparesTheRotations : Prop :=
  ∀ s : State, s.ibuf.length = s.n.toNat → s.n ≠ 0 →
    (s.n ≤ s.a ∨ s.n ≤ s.b → exec .srkCmpr s = .next (afterError s 0x24 0x17)) ∧
    (s.a < s.n → s.b < s.n →
      ∃ v, exec .srkCmpr s = .next (afterOk s v) ∧
        (v = 0xFFFFFFFF ∧ RotLt s.ibuf s.a.toNat s.b.toNat ∨ v = 0x00000001 ∧ RotLt s.ibuf s.b.toNat s.a.toNat ∨
          v = 0x00000000 ∧ RotEq s.ibuf s.a.toNat s.b.toNat))

/-- R164: after a successful `SRK.SORT` or `BWT.FWD` every index occurs once in `ORD`, and `SRK.CMPR` on two neighbours
answers less or equal, never greater. -/
def Obligations.AdjacentRotationsCompareInOrder : Prop :=
  ∀ (s : State) (i : Instr), i = .srkSort ∨ i = .bwtFwd → s.ibuf.length = s.n.toNat → s.n ≠ 0 →
    ∃ t, exec i s = .next t ∧ t.ord.length = s.n.toNat ∧ (∀ v : Word, v < s.n → t.ord.count v = 1) ∧
      ∀ k x y, t.ord[k]? = some x → t.ord[k + 1]? = some y →
        exec .srkCmpr { t with a := x, b := y } = .next (afterOk { t with a := x, b := y } 0xFFFFFFFF) ∨
        exec .srkCmpr { t with a := x, b := y } = .next (afterOk { t with a := x, b := y } 0)

/-- R165: a block that is not periodic has one suffix order, so any correct sorter gives this one. -/
def Obligations.NonPeriodicBlocksHaveOneSuffixOrder : Prop :=
  ∀ (b : List Byte) (order : List Nat), b ≠ [] → ¬ Periodic b → IsSuffixOrder b order → order = suffixOrder b

/-! ## BWTCodec -/

/-- R181, R182, with its frame: the order is a suffix order, the index is the position of rotation 0 in it, the last column
is the byte before each rotation, and the output is the big-endian index and then the column. -/
def Obligations.BwtFwdWritesThePair : Prop :=
  ∀ s : State, s.ibuf.length = s.n.toNat → s.n ≠ 0 →
    ∃ (order : List Nat) (k : Nat) (column : List Byte), order = suffixOrder s.ibuf ∧ IsSuffixOrder s.ibuf order ∧ order[k]? = some 0 ∧
      column.length = s.n.toNat ∧
      (∀ (j r : Nat), order[j]? = some r → column[j]? = s.ibuf[(r + s.n.toNat - 1) % s.n.toNat]?) ∧
      exec .bwtFwd s = .next (afterOk
        { s with
          ord := order.map (BitVec.ofNat 32)
          ordv := true
          fri := BitVec.ofNat 32 k
          obuf := [(BitVec.ofNat 32 k).extractLsb' 24 8, (BitVec.ofNat 32 k).extractLsb' 16 8,
            (BitVec.ofNat 32 k).extractLsb' 8 8, (BitVec.ofNat 32 k).extractLsb' 0 8] ++ column
          orp := 0 } 0)

/-- R62: the four bytes of the index, written most significant first and read back the same way, whatever follows them. -/
def Obligations.FirstRowIndexSerialisesBigEndian : Prop :=
  (∀ (v : Word) (rest : List Byte), ofBe32 (be32 v ++ rest) = v) ∧
  (∀ (x y z u : Byte) (rest : List Byte), be32 (ofBe32 (x :: y :: z :: u :: rest)) = [x, y, z, u]) ∧
  ∀ (x y z u : Byte) (rest : List Byte),
    (ofBe32 (x :: y :: z :: u :: rest)).toNat = x.toNat * 2 ^ 24 + y.toNat * 2 ^ 16 + z.toNat * 2 ^ 8 + u.toNat

/-- R183: the last column is a rearrangement of the block's bytes, and what `BWT.FWD` leaves and answers is a function of
`N` and the loaded block alone. -/
def Obligations.LastColumnRearrangesTheBlock : Prop :=
  (∀ b : List Byte, b ≠ [] → (lastColumn b (suffixOrder b)).Perm b) ∧
  ∀ s u : State, u.n = s.n → u.ibuf = s.ibuf →
    ∃ t v r, exec .bwtFwd s = .next t ∧ exec .bwtFwd u = .next v ∧
      t.responses = s.responses ++ [r] ∧ v.responses = u.responses ++ [r] ∧
      (s.ibuf.length = s.n.toNat → s.n ≠ 0 → t.ord = v.ord ∧ t.fri = v.fri ∧ t.obuf = v.obuf ∧ t.orp = v.orp)

/-- R185: `INVCHK`, in its order, with the index read big-endian from the first four bytes. -/
def Obligations.BwtInvChecksItsInput : Prop :=
  ∀ s : State,
    (s.ibuf.length ≠ s.n.toNat + 4 → exec .bwtInv s = .next (afterError s 0x31 0x02)) ∧
    (s.ibuf.length = s.n.toNat + 4 → s.n = 0 → exec .bwtInv s = .next (afterError s 0x31 0x01)) ∧
    ∀ x y z u L, s.ibuf = x :: y :: z :: u :: L → L.length = s.n.toNat → s.n ≠ 0 →
      s.n.toNat ≤ x.toNat * 2 ^ 24 + y.toNat * 2 ^ 16 + z.toNat * 2 ^ 8 + u.toNat →
        exec .bwtInv s = .next (afterError s 0x31 0x03)

/-- R186, R190, with its frame: on an input that passes `INVCHK` the output is the `n`-step walk from the index over the
sorted column and the `next` permutation of the last column; nothing but `FRI` and the output changes. -/
def Obligations.BwtInvWalksTheNextPermutation : Prop :=
  ∀ (s : State) (x y z u : Byte) (L : List Byte) (f : Nat), s.ibuf = x :: y :: z :: u :: L → L.length = s.n.toNat →
    s.n ≠ 0 → f = x.toNat * 2 ^ 24 + y.toNat * 2 ^ 16 + z.toNat * 2 ^ 8 + u.toNat → f < s.n.toNat →
      ∃ S N, IsSortedColumn L S ∧ IsNext L S N ∧
        exec .bwtInv s = .next (afterOk
          { s with
            fri := BitVec.ofNat 32 f
            obuf := (List.range s.n.toNat).map fun i => S.getD ((fun cur => N.getD cur 0)^[i] f) 0
            orp := 0 } 0)

/-- R187: the offset table's first array is the bytes of `L` in non-decreasing order, the value `c` standing exactly at
`[start(c), start(c) + occ(c))`. -/
def Obligations.OffsetTableSortsTheLastColumn : Prop :=
  ∀ L : List Byte,
    IsSortedColumn L (inverseArrays L).scol ∧
    ∀ (i : Nat) (c : Byte), (inverseArrays L).scol[i]? = some c ↔ startOf L c ≤ i ∧ i < startOf L c + L.count c

/-- R188: the offset table's second array is the `next` permutation: entry by entry, a permutation, linking equal bytes,
strictly increasing on each run of equal bytes. -/
def Obligations.NextPermutationLinksOccurrences : Prop :=
  ∀ L : List Byte,
    IsNext L (inverseArrays L).scol (inverseArrays L).nxt ∧
    (inverseArrays L).nxt.Perm (List.range L.length) ∧
    (∀ (i p : Nat), (inverseArrays L).nxt[i]? = some p → L[p]? = (inverseArrays L).scol[i]?) ∧
    ∀ (i j p q : Nat), i < j → (inverseArrays L).scol[i]? = (inverseArrays L).scol[j]? →
      (inverseArrays L).nxt[i]? = some p → (inverseArrays L).nxt[j]? = some q → p < q

/-- R189: the offset table and the 256 growable buffers give the same two arrays. -/
def Obligations.OffsetTableAgreesWithTheBuckets : Prop :=
  ∀ L : List Byte,
    (inverseArrays L).nxt = bucketNext L ∧ (inverseArrays L).scol = (bucketNext L).map fun p => L.getD p 0

/-- R191: the round trip through the commands: what `BWT.FWD` puts out of any block, loaded with the same `N` into any
state, `BWT.INV` turns back into the block. -/
def Obligations.InverseRecoversTheBlock : Prop :=
  ∀ s : State, s.ibuf.length = s.n.toNat → s.n ≠ 0 →
    ∃ t, exec .bwtFwd s = .next t ∧
      ∀ u : State, u.n = s.n → u.ibuf = t.obuf →
        exec .bwtInv u = .next (afterOk { u with fri := t.fri, obuf := s.ibuf, orp := 0 } 0)

/-- R184: the last column is the same for every suffix order of the block, the index too when the block is not periodic, and
the inverse recovers the block from the index any suffix order gives. -/
def Obligations.TieOrderDoesNotChangeTheLastColumn : Prop :=
  ∀ (b : List Byte) (order : List Nat), b ≠ [] → IsSuffixOrder b order →
    lastColumn b order = lastColumn b (suffixOrder b) ∧
    (¬ Periodic b → firstRowIndex order = firstRowIndex (suffixOrder b)) ∧
    inverseTransform (firstRowIndex order) (lastColumn b order) = b

/-- R192, R193: the worked inverse, and a pair no block produces. -/
def Obligations.InverseTransformsOfTheSpecsExamples : Prop :=
  inverseTransform 3 [0x41, 0x52, 0x44, 0x21, 0x52, 0x43, 0x41, 0x41, 0x41, 0x41, 0x42, 0x42] =
    [0x41, 0x42, 0x52, 0x41, 0x43, 0x41, 0x44, 0x41, 0x42, 0x52, 0x41, 0x21] ∧
  inverseTransform 0 [0x41, 0x42] = [0x41, 0x41]

/-! ## MoveToFrontCodec -/

/-- R211, with its frame. -/
def Obligations.MtfInitWritesTheIdentity : Prop :=
  ∀ s : State, ∃ t, exec .mtfInit s = .next t ∧ t = afterOk { s with mtft := t.mtft } 0 ∧
    ∀ v : Fin 256, t.mtft[v.val] = BitVec.ofNat 8 v.val

/-- R212, with its frame: the one index that holds the byte, then the front move. The premise is the table invariant of
R216. -/
def Obligations.MtfEncFindsTheByteAndMovesIt : Prop :=
  ∀ (s : State) (x : Byte), IsByteTable s.mtft →
    ∃ i : Fin 256, s.mtft[i.val] = x ∧ (∀ j : Fin 256, s.mtft[j.val] = x → j = i) ∧
      exec (.mtfEnc x) s = .next (afterOk { s with mtft := frontMove s.mtft i } (BitVec.ofNat 32 i.val))

/-- R214, with its frame: every index is legal. -/
def Obligations.MtfDecLooksUpAndMoves : Prop :=
  ∀ (s : State) (k : Fin 256),
    exec (.mtfDec (BitVec.ofNat 8 k.val)) s =
      .next (afterOk { s with mtft := frontMove s.mtft k } ((s.mtft[k.val]).setWidth 32))

/-- R213: the entry goes to the front, the prefix before it moves one place right in its order, the rest stays, and the
result is again a rearrangement of the table. -/
def Obligations.FrontMoveShiftsThePrefix : Prop :=
  ∀ (t : Vector Byte 256) (i : Fin 256),
    (frontMove t i).toList = t[i.val] :: (t.toList.take i.val ++ t.toList.drop (i.val + 1)) ∧
    (frontMove t i).toList.Perm t.toList

/-- R215: encode and decode undo each other from the same table and leave the same table, both ways round. -/
def Obligations.MtfDecodeInvertsEncode : Prop :=
  ∀ s u : State, IsByteTable s.mtft → u.mtft = s.mtft →
    (∀ x : Byte, ∃ (k : Byte) (T : Vector Byte 256),
      exec (.mtfEnc x) s = .next (afterOk { s with mtft := T } (k.setWidth 32)) ∧
      exec (.mtfDec k) u = .next (afterOk { u with mtft := T } (x.setWidth 32))) ∧
    ∀ k : Byte, ∃ (x : Byte) (T : Vector Byte 256),
      exec (.mtfDec k) s = .next (afterOk { s with mtft := T } (x.setWidth 32)) ∧
      exec (.mtfEnc x) u = .next (afterOk { u with mtft := T } (k.setWidth 32))

/-- R215: the round trip of a whole stream, whatever its length: decoding the codes of any byte sequence from the same table
returns the sequence. -/
def Obligations.MtfStreamsRoundTrip : Prop :=
  ∀ (s u : State) (bytes : List Byte), IsByteTable s.mtft → u.mtft = s.mtft →
    ∃ (codes : List Byte) (t v : State),
      execAll (bytes.map Instr.mtfEnc) s = .next t ∧ t.responses = s.responses ++ codes.map (fun c => c.setWidth 64) ∧
      codes.length = bytes.length ∧
      execAll (codes.map Instr.mtfDec) u = .next v ∧ v.responses = u.responses ++ bytes.map (fun c => c.setWidth 64) ∧
      v.mtft = t.mtft

/-- R218: an `MTF.*` command writes nothing but the table and answers from the table alone; no other command but `RESET`
writes the table, and none reads it. -/
def Obligations.MtfUnitSharesNoState : Prop :=
  (∀ (i : Instr) (s t : State), IsMtf i = true → exec i s = .next t →
    t = { s with mtft := t.mtft, responses := t.responses }) ∧
  (∀ (i : Instr) (s u : State), IsMtf i = true → u.mtft = s.mtft →
    ∃ t v r, exec i s = .next t ∧ exec i u = .next v ∧ t.mtft = v.mtft ∧
      t.responses = s.responses ++ [r] ∧ v.responses = u.responses ++ [r]) ∧
  ∀ (i : Instr) (s t : State) (T : Vector Byte 256), IsMtf i = false → i ≠ .reset → exec i s = .next t →
    t.mtft = s.mtft ∧ exec i { s with mtft := T } = .next { t with mtft := T }

/-! ## Errors, flags and the whole machine -/

/-- R239: a command whose response carries `ERR = 1` has set `ESTK`, written its opcode and the response's cause to
`ECAUSE`, and changed nothing else, whatever the word and the state. -/
def Obligations.ErrorsChangeOnlyTheErrorRecord : Prop :=
  ∀ (s t : State) (w : Word64) (rest : List HostEvent) (r : Word64), s.inputs = .command w :: rest → step s = .next t →
    t.responses = s.responses ++ [r] → errBit r = true →
      t = afterError { s with inputs := rest } (w.extractLsb' 56 8) (causeField r)

/-- R28, R31: `ESTK` is 0 at reset, set by every command word that ends in an error and cleared only by `CLRERR` and `RESET`;
a command that succeeds leaves the record as it was; no command but a read of `STATUS` depends on `ESTK`. -/
def Obligations.StickyErrorFollowsItsRule : Prop :=
  State.reset.estk = false ∧
  (∀ (s t : State) (w : Word64) (rest : List HostEvent), s.inputs = .command w :: rest → step s = .next t →
    ∃ r, t.responses = s.responses ++ [r] ∧
      (errBit r = true → t.estk = true) ∧
      (errBit r = false → decode w = .ok .clrerr ∨ decode w = .ok .reset → t.estk = false ∧ t.ecause = 0) ∧
      (errBit r = false → decode w ≠ .ok .clrerr → decode w ≠ .ok .reset → t.estk = s.estk ∧ t.ecause = s.ecause)) ∧
  ∀ (i : Instr) (s t : State) (e : Bool), i ≠ .getr 8 → exec i s = .next t →
    ∃ v, exec i { s with estk := e } = .next v ∧ { v with estk := t.estk } = t

/-- R27: `ORDV` after every command, and what it means in the states a run reaches. -/
def Obligations.OrderValidFlagFollowsItsRule : Prop :=
  (∀ (i : Instr) (s t : State), exec i s = .next t →
    ∃ r, t.responses = s.responses ++ [r] ∧
      (errBit r = true → t.ordv = s.ordv) ∧ (errBit r = false → t.ordv = ordvAfter i s.ordv)) ∧
  State.reset.ordv = false ∧
  ∀ s : State, Inv s → s.ordv = true → s.ibuf.length = s.n.toNat ∧ 1 ≤ s.n.toNat

/-- R21 to R25, R34: which commands can change each data register and the read pointer. -/
def Obligations.DataRegistersHaveTheirWriters : Prop :=
  ∀ (i : Instr) (s t : State), exec i s = .next t →
    (t.n ≠ s.n → i = .reset ∨ ∃ v, i = .setr 0 v) ∧
    (t.fri ≠ s.fri → i = .reset ∨ i = .bwtFwd ∨ i = .bwtInv) ∧
    (t.a ≠ s.a → i = .reset ∨ ∃ v, i = .setr 2 v) ∧
    (t.b ≠ s.b → i = .reset ∨ ∃ v, i = .setr 3 v) ∧
    (t.d ≠ s.d → i = .reset ∨ ∃ v, i = .setr 4 v) ∧
    (t.orp ≠ s.orp → i = .reset ∨ i = .clr ∨ i = .getb ∨ i = .bwtFwd ∨ i = .bwtInv)

/-- R42, R67: which commands can change each space; the transforms and the comparator commands never change the input or
`N`. -/
def Obligations.SpacesHaveTheirWriters : Prop :=
  ∀ (i : Instr) (s t : State), exec i s = .next t →
    (t.ibuf ≠ s.ibuf → i = .reset ∨ i = .clr ∨ ∃ x, i = .putb x) ∧
    (t.obuf ≠ s.obuf → i = .reset ∨ i = .clr ∨ i = .bwtFwd ∨ i = .bwtInv) ∧
    (t.ord ≠ s.ord → i = .reset ∨ i = .srkSort ∨ i = .bwtFwd) ∧
    (t.mtft ≠ s.mtft → i = .reset ∨ i = .mtfInit ∨ (∃ x, i = .mtfEnc x) ∨ ∃ k, i = .mtfDec k) ∧
    (i ∈ [Instr.srkSort, .srkChr, .srkCmp, .srkCmpr, .bwtFwd, .bwtInv] → t.ibuf = s.ibuf ∧ t.n = s.n)

/-- R268: after a `PUTB`, a `SETR N` or a `CLR` that succeeds `ORDV` is 0, while it is 0 `SRK.RDORD` raises `IC_ORD` at every
index, and no step but a successful `SRK.SORT` or `BWT.FWD` ends that. -/
def Obligations.ChangedInputMakesTheOrderStale : Prop :=
  (∀ (i : Instr) (s t : State) (r : Word64), (∃ x, i = .putb x) ∨ (∃ v, i = .setr 0 v) ∨ i = .clr →
    exec i s = .next t → t.responses = s.responses ++ [r] → errBit r = false → t.ordv = false) ∧
  (∀ (s : State) (k : Word), s.ordv = false → exec (.srkRdord k) s = .next (afterError s 0x21 0x16)) ∧
  ∀ s t : State, step s = .next t → s.ordv = false → t.ordv = true →
    ∃ w rest r, s.inputs = .command w :: rest ∧ (decode w = .ok .srkSort ∨ decode w = .ok .bwtFwd) ∧
      t.responses = s.responses ++ [r] ∧ errBit r = false

/-- Every step keeps the invariant: `N` and `FRI` within the capacity, the buffers within theirs, a valid order that of the
block now loaded, the table a permutation, the error record consistent (R21, R27, R31, R34, R37 to R40). -/
def Obligations.EveryStepKeepsTheStateInvariant : Prop :=
  ∀ s t : State, Inv s → step s = .next t → Inv t

/-- The reset state meets the invariant. -/
def Obligations.ResetMeetsTheStateInvariant : Prop := Inv State.reset
end

