-- ==== Sys2Proof/Laws/Decode.lean ====
section
/-! SUPPORT. The fields of a command word put together and taken apart. -/

namespace Sys2Proof

/-- Which field each bit of a command word belongs to (30_encoding.md R91). -/
theorem getLsbD_wordOf (f : CommandFields) (i : Nat) :
    (wordOf f).getLsbD i =
      if i < 32 then f.imm.getLsbD i
      else if i - 32 < 16 then f.rsv.getLsbD (i - 32)
      else if i - 32 - 16 < 8 then f.reg.getLsbD (i - 32 - 16)
      else f.op.getLsbD (i - 32 - 16 - 8) := by
  simp only [wordOf, BitVec.getLsbD_append]

theorem opField_wordOf (f : CommandFields) : opField (wordOf f) = f.op := by
  apply BitVec.eq_of_getLsbD_eq
  intro i hi
  rw [opField, BitVec.getLsbD_extractLsb', getLsbD_wordOf, if_neg (by omega), if_neg (by omega), if_neg (by omega)]
  simp [hi, show 56 + i - 32 - 16 - 8 = i by omega]

theorem fieldsOf_wordOf (f : CommandFields) : fieldsOf (wordOf f) = f := by
  have hreg : (wordOf f).extractLsb' 48 8 = f.reg := by
    apply BitVec.eq_of_getLsbD_eq
    intro i hi
    rw [BitVec.getLsbD_extractLsb', getLsbD_wordOf, if_neg (by omega), if_neg (by omega), if_pos (by omega)]
    simp [hi, show 48 + i - 32 - 16 = i by omega]
  have hrsv : (wordOf f).extractLsb' 32 16 = f.rsv := by
    apply BitVec.eq_of_getLsbD_eq
    intro i hi
    rw [BitVec.getLsbD_extractLsb', getLsbD_wordOf, if_neg (by omega), if_pos (by omega)]
    simp [hi]
  have himm : (wordOf f).extractLsb' 0 32 = f.imm := by
    apply BitVec.eq_of_getLsbD_eq
    intro i hi
    rw [BitVec.getLsbD_extractLsb', getLsbD_wordOf, if_pos (by omega)]
    simp [hi]
  simp [fieldsOf, opField_wordOf, hreg, hrsv, himm]

/-- A word is its four fields put together: no bit of it is lost. -/
theorem wordOf_fieldsOf (w : Word64) : wordOf (fieldsOf w) = w := by
  apply BitVec.eq_of_getLsbD_eq
  intro i hi
  rw [getLsbD_wordOf]
  simp only [fieldsOf, opField, BitVec.getLsbD_extractLsb']
  split
  · simp_all
  · split
    · simp_all [show 32 + (i - 32) = i by omega]
    · split
      · simp_all [show 48 + (i - 32 - 16) = i by omega]
      · simp [show 56 + (i - 32 - 16 - 8) = i by omega, show i - 32 - 16 - 8 < 8 by omega]

/-- A byte zero-extended into `IMM` is the byte operand of the word. -/
theorem byteOperand_setWidth (op reg : Byte) (rsv : Half) (x : Byte) :
    byteOperand ⟨op, reg, rsv, x.setWidth 32⟩ = x := by
  apply BitVec.eq_of_getLsbD_eq
  intro i hi
  simp only [byteOperand, BitVec.getLsbD_extractLsb', BitVec.getLsbD_setWidth]
  simp [hi, show i < 32 by omega]

end Sys2Proof
end

