-- ==== Sys2Proof/Laws/State.lean ====
section
/-! SUPPORT. One lemma per field and per named update of the state, so that no proof unfolds a record update. -/

namespace Sys2Proof.Machine

open Sys2Proof

variable (s : State)

section respondFields
variable (r : Word64)
@[simp] theorem respond_n : (respond r s).n = s.n := rfl
@[simp] theorem respond_fri : (respond r s).fri = s.fri := rfl
@[simp] theorem respond_a : (respond r s).a = s.a := rfl
@[simp] theorem respond_b : (respond r s).b = s.b := rfl
@[simp] theorem respond_d : (respond r s).d = s.d := rfl
@[simp] theorem respond_ordv : (respond r s).ordv = s.ordv := rfl
@[simp] theorem respond_estk : (respond r s).estk = s.estk := rfl
@[simp] theorem respond_ecause : (respond r s).ecause = s.ecause := rfl
@[simp] theorem respond_ibuf : (respond r s).ibuf = s.ibuf := rfl
@[simp] theorem respond_obuf : (respond r s).obuf = s.obuf := rfl
@[simp] theorem respond_orp : (respond r s).orp = s.orp := rfl
@[simp] theorem respond_ord : (respond r s).ord = s.ord := rfl
@[simp] theorem respond_mtft : (respond r s).mtft = s.mtft := rfl
@[simp] theorem respond_inputs : (respond r s).inputs = s.inputs := rfl
@[simp] theorem respond_responses : (respond r s).responses = s.responses ++ [r] := rfl
end respondFields

section succeedFields
variable (v : Word)
@[simp] theorem succeed_n : (succeed v s).n = s.n := rfl
@[simp] theorem succeed_fri : (succeed v s).fri = s.fri := rfl
@[simp] theorem succeed_a : (succeed v s).a = s.a := rfl
@[simp] theorem succeed_b : (succeed v s).b = s.b := rfl
@[simp] theorem succeed_d : (succeed v s).d = s.d := rfl
@[simp] theorem succeed_ordv : (succeed v s).ordv = s.ordv := rfl
@[simp] theorem succeed_estk : (succeed v s).estk = s.estk := rfl
@[simp] theorem succeed_ecause : (succeed v s).ecause = s.ecause := rfl
@[simp] theorem succeed_ibuf : (succeed v s).ibuf = s.ibuf := rfl
@[simp] theorem succeed_obuf : (succeed v s).obuf = s.obuf := rfl
@[simp] theorem succeed_orp : (succeed v s).orp = s.orp := rfl
@[simp] theorem succeed_ord : (succeed v s).ord = s.ord := rfl
@[simp] theorem succeed_mtft : (succeed v s).mtft = s.mtft := rfl
@[simp] theorem succeed_inputs : (succeed v s).inputs = s.inputs := rfl
@[simp] theorem succeed_responses : (succeed v s).responses = s.responses ++ [rspOk v] := rfl
end succeedFields

section recordErrorFields
variable (op c : Byte)
@[simp] theorem recordError_n : (recordError op c s).n = s.n := rfl
@[simp] theorem recordError_fri : (recordError op c s).fri = s.fri := rfl
@[simp] theorem recordError_a : (recordError op c s).a = s.a := rfl
@[simp] theorem recordError_b : (recordError op c s).b = s.b := rfl
@[simp] theorem recordError_d : (recordError op c s).d = s.d := rfl
@[simp] theorem recordError_ordv : (recordError op c s).ordv = s.ordv := rfl
@[simp] theorem recordError_estk : (recordError op c s).estk = true := rfl
@[simp] theorem recordError_ecause : (recordError op c s).ecause = ecauseOf op c := rfl
@[simp] theorem recordError_ibuf : (recordError op c s).ibuf = s.ibuf := rfl
@[simp] theorem recordError_obuf : (recordError op c s).obuf = s.obuf := rfl
@[simp] theorem recordError_orp : (recordError op c s).orp = s.orp := rfl
@[simp] theorem recordError_ord : (recordError op c s).ord = s.ord := rfl
@[simp] theorem recordError_mtft : (recordError op c s).mtft = s.mtft := rfl
@[simp] theorem recordError_inputs : (recordError op c s).inputs = s.inputs := rfl
@[simp] theorem recordError_responses : (recordError op c s).responses = s.responses := rfl
end recordErrorFields

section raiseFields
variable (op : Byte) (c : Cause)
@[simp] theorem raise_n : (raise op c s).n = s.n := rfl
@[simp] theorem raise_fri : (raise op c s).fri = s.fri := rfl
@[simp] theorem raise_a : (raise op c s).a = s.a := rfl
@[simp] theorem raise_b : (raise op c s).b = s.b := rfl
@[simp] theorem raise_d : (raise op c s).d = s.d := rfl
@[simp] theorem raise_ordv : (raise op c s).ordv = s.ordv := rfl
@[simp] theorem raise_estk : (raise op c s).estk = true := rfl
@[simp] theorem raise_ecause : (raise op c s).ecause = ecauseOf op c.code := rfl
@[simp] theorem raise_ibuf : (raise op c s).ibuf = s.ibuf := rfl
@[simp] theorem raise_obuf : (raise op c s).obuf = s.obuf := rfl
@[simp] theorem raise_orp : (raise op c s).orp = s.orp := rfl
@[simp] theorem raise_ord : (raise op c s).ord = s.ord := rfl
@[simp] theorem raise_mtft : (raise op c s).mtft = s.mtft := rfl
@[simp] theorem raise_inputs : (raise op c s).inputs = s.inputs := rfl
@[simp] theorem raise_responses : (raise op c s).responses = s.responses ++ [rspErr c.code] := rfl
end raiseFields

section clearErrorFields
@[simp] theorem clearError_n : (clearError s).n = s.n := rfl
@[simp] theorem clearError_fri : (clearError s).fri = s.fri := rfl
@[simp] theorem clearError_a : (clearError s).a = s.a := rfl
@[simp] theorem clearError_b : (clearError s).b = s.b := rfl
@[simp] theorem clearError_d : (clearError s).d = s.d := rfl
@[simp] theorem clearError_ordv : (clearError s).ordv = s.ordv := rfl
@[simp] theorem clearError_estk : (clearError s).estk = false := rfl
@[simp] theorem clearError_ecause : (clearError s).ecause = 0 := rfl
@[simp] theorem clearError_ibuf : (clearError s).ibuf = s.ibuf := rfl
@[simp] theorem clearError_obuf : (clearError s).obuf = s.obuf := rfl
@[simp] theorem clearError_orp : (clearError s).orp = s.orp := rfl
@[simp] theorem clearError_ord : (clearError s).ord = s.ord := rfl
@[simp] theorem clearError_mtft : (clearError s).mtft = s.mtft := rfl
@[simp] theorem clearError_inputs : (clearError s).inputs = s.inputs := rfl
@[simp] theorem clearError_responses : (clearError s).responses = s.responses := rfl
end clearErrorFields

section setOrdvFields
@[simp] theorem setOrdv_n : (setOrdv s).n = s.n := rfl
@[simp] theorem setOrdv_fri : (setOrdv s).fri = s.fri := rfl
@[simp] theorem setOrdv_a : (setOrdv s).a = s.a := rfl
@[simp] theorem setOrdv_b : (setOrdv s).b = s.b := rfl
@[simp] theorem setOrdv_d : (setOrdv s).d = s.d := rfl
@[simp] theorem setOrdv_ordv : (setOrdv s).ordv = true := rfl
@[simp] theorem setOrdv_estk : (setOrdv s).estk = s.estk := rfl
@[simp] theorem setOrdv_ecause : (setOrdv s).ecause = s.ecause := rfl
@[simp] theorem setOrdv_ibuf : (setOrdv s).ibuf = s.ibuf := rfl
@[simp] theorem setOrdv_obuf : (setOrdv s).obuf = s.obuf := rfl
@[simp] theorem setOrdv_orp : (setOrdv s).orp = s.orp := rfl
@[simp] theorem setOrdv_ord : (setOrdv s).ord = s.ord := rfl
@[simp] theorem setOrdv_mtft : (setOrdv s).mtft = s.mtft := rfl
@[simp] theorem setOrdv_inputs : (setOrdv s).inputs = s.inputs := rfl
@[simp] theorem setOrdv_responses : (setOrdv s).responses = s.responses := rfl
end setOrdvFields

section clearOrdvFields
@[simp] theorem clearOrdv_n : (clearOrdv s).n = s.n := rfl
@[simp] theorem clearOrdv_fri : (clearOrdv s).fri = s.fri := rfl
@[simp] theorem clearOrdv_a : (clearOrdv s).a = s.a := rfl
@[simp] theorem clearOrdv_b : (clearOrdv s).b = s.b := rfl
@[simp] theorem clearOrdv_d : (clearOrdv s).d = s.d := rfl
@[simp] theorem clearOrdv_ordv : (clearOrdv s).ordv = false := rfl
@[simp] theorem clearOrdv_estk : (clearOrdv s).estk = s.estk := rfl
@[simp] theorem clearOrdv_ecause : (clearOrdv s).ecause = s.ecause := rfl
@[simp] theorem clearOrdv_ibuf : (clearOrdv s).ibuf = s.ibuf := rfl
@[simp] theorem clearOrdv_obuf : (clearOrdv s).obuf = s.obuf := rfl
@[simp] theorem clearOrdv_orp : (clearOrdv s).orp = s.orp := rfl
@[simp] theorem clearOrdv_ord : (clearOrdv s).ord = s.ord := rfl
@[simp] theorem clearOrdv_mtft : (clearOrdv s).mtft = s.mtft := rfl
@[simp] theorem clearOrdv_inputs : (clearOrdv s).inputs = s.inputs := rfl
@[simp] theorem clearOrdv_responses : (clearOrdv s).responses = s.responses := rfl
end clearOrdvFields

section resetBlockFields
@[simp] theorem resetBlock_n : (resetBlock s).n = State.reset.n := rfl
@[simp] theorem resetBlock_fri : (resetBlock s).fri = State.reset.fri := rfl
@[simp] theorem resetBlock_a : (resetBlock s).a = State.reset.a := rfl
@[simp] theorem resetBlock_b : (resetBlock s).b = State.reset.b := rfl
@[simp] theorem resetBlock_d : (resetBlock s).d = State.reset.d := rfl
@[simp] theorem resetBlock_ordv : (resetBlock s).ordv = State.reset.ordv := rfl
@[simp] theorem resetBlock_estk : (resetBlock s).estk = State.reset.estk := rfl
@[simp] theorem resetBlock_ecause : (resetBlock s).ecause = State.reset.ecause := rfl
@[simp] theorem resetBlock_ibuf : (resetBlock s).ibuf = State.reset.ibuf := rfl
@[simp] theorem resetBlock_obuf : (resetBlock s).obuf = State.reset.obuf := rfl
@[simp] theorem resetBlock_orp : (resetBlock s).orp = State.reset.orp := rfl
@[simp] theorem resetBlock_ord : (resetBlock s).ord = State.reset.ord := rfl
@[simp] theorem resetBlock_mtft : (resetBlock s).mtft = State.reset.mtft := rfl
@[simp] theorem resetBlock_inputs : (resetBlock s).inputs = s.inputs := rfl
@[simp] theorem resetBlock_responses : (resetBlock s).responses = s.responses := rfl
end resetBlockFields

section ibufAppendFields
variable (x : Byte)
@[simp] theorem ibufAppend_n : (ibufAppend x s).n = s.n := rfl
@[simp] theorem ibufAppend_fri : (ibufAppend x s).fri = s.fri := rfl
@[simp] theorem ibufAppend_a : (ibufAppend x s).a = s.a := rfl
@[simp] theorem ibufAppend_b : (ibufAppend x s).b = s.b := rfl
@[simp] theorem ibufAppend_d : (ibufAppend x s).d = s.d := rfl
@[simp] theorem ibufAppend_ordv : (ibufAppend x s).ordv = s.ordv := rfl
@[simp] theorem ibufAppend_estk : (ibufAppend x s).estk = s.estk := rfl
@[simp] theorem ibufAppend_ecause : (ibufAppend x s).ecause = s.ecause := rfl
@[simp] theorem ibufAppend_ibuf : (ibufAppend x s).ibuf = s.ibuf ++ [x] := rfl
@[simp] theorem ibufAppend_obuf : (ibufAppend x s).obuf = s.obuf := rfl
@[simp] theorem ibufAppend_orp : (ibufAppend x s).orp = s.orp := rfl
@[simp] theorem ibufAppend_ord : (ibufAppend x s).ord = s.ord := rfl
@[simp] theorem ibufAppend_mtft : (ibufAppend x s).mtft = s.mtft := rfl
@[simp] theorem ibufAppend_inputs : (ibufAppend x s).inputs = s.inputs := rfl
@[simp] theorem ibufAppend_responses : (ibufAppend x s).responses = s.responses := rfl
end ibufAppendFields

section advanceOrpFields
@[simp] theorem advanceOrp_n : (advanceOrp s).n = s.n := rfl
@[simp] theorem advanceOrp_fri : (advanceOrp s).fri = s.fri := rfl
@[simp] theorem advanceOrp_a : (advanceOrp s).a = s.a := rfl
@[simp] theorem advanceOrp_b : (advanceOrp s).b = s.b := rfl
@[simp] theorem advanceOrp_d : (advanceOrp s).d = s.d := rfl
@[simp] theorem advanceOrp_ordv : (advanceOrp s).ordv = s.ordv := rfl
@[simp] theorem advanceOrp_estk : (advanceOrp s).estk = s.estk := rfl
@[simp] theorem advanceOrp_ecause : (advanceOrp s).ecause = s.ecause := rfl
@[simp] theorem advanceOrp_ibuf : (advanceOrp s).ibuf = s.ibuf := rfl
@[simp] theorem advanceOrp_obuf : (advanceOrp s).obuf = s.obuf := rfl
@[simp] theorem advanceOrp_orp : (advanceOrp s).orp = s.orp + 1 := rfl
@[simp] theorem advanceOrp_ord : (advanceOrp s).ord = s.ord := rfl
@[simp] theorem advanceOrp_mtft : (advanceOrp s).mtft = s.mtft := rfl
@[simp] theorem advanceOrp_inputs : (advanceOrp s).inputs = s.inputs := rfl
@[simp] theorem advanceOrp_responses : (advanceOrp s).responses = s.responses := rfl
end advanceOrpFields

section setOutputFields
variable (l : List Byte)
@[simp] theorem setOutput_n : (setOutput l s).n = s.n := rfl
@[simp] theorem setOutput_fri : (setOutput l s).fri = s.fri := rfl
@[simp] theorem setOutput_a : (setOutput l s).a = s.a := rfl
@[simp] theorem setOutput_b : (setOutput l s).b = s.b := rfl
@[simp] theorem setOutput_d : (setOutput l s).d = s.d := rfl
@[simp] theorem setOutput_ordv : (setOutput l s).ordv = s.ordv := rfl
@[simp] theorem setOutput_estk : (setOutput l s).estk = s.estk := rfl
@[simp] theorem setOutput_ecause : (setOutput l s).ecause = s.ecause := rfl
@[simp] theorem setOutput_ibuf : (setOutput l s).ibuf = s.ibuf := rfl
@[simp] theorem setOutput_obuf : (setOutput l s).obuf = l := rfl
@[simp] theorem setOutput_orp : (setOutput l s).orp = 0 := rfl
@[simp] theorem setOutput_ord : (setOutput l s).ord = s.ord := rfl
@[simp] theorem setOutput_mtft : (setOutput l s).mtft = s.mtft := rfl
@[simp] theorem setOutput_inputs : (setOutput l s).inputs = s.inputs := rfl
@[simp] theorem setOutput_responses : (setOutput l s).responses = s.responses := rfl
end setOutputFields

section emptyBuffersFields
@[simp] theorem emptyBuffers_n : (emptyBuffers s).n = s.n := rfl
@[simp] theorem emptyBuffers_fri : (emptyBuffers s).fri = s.fri := rfl
@[simp] theorem emptyBuffers_a : (emptyBuffers s).a = s.a := rfl
@[simp] theorem emptyBuffers_b : (emptyBuffers s).b = s.b := rfl
@[simp] theorem emptyBuffers_d : (emptyBuffers s).d = s.d := rfl
@[simp] theorem emptyBuffers_ordv : (emptyBuffers s).ordv = s.ordv := rfl
@[simp] theorem emptyBuffers_estk : (emptyBuffers s).estk = s.estk := rfl
@[simp] theorem emptyBuffers_ecause : (emptyBuffers s).ecause = s.ecause := rfl
@[simp] theorem emptyBuffers_ibuf : (emptyBuffers s).ibuf = [] := rfl
@[simp] theorem emptyBuffers_obuf : (emptyBuffers s).obuf = [] := rfl
@[simp] theorem emptyBuffers_orp : (emptyBuffers s).orp = 0 := rfl
@[simp] theorem emptyBuffers_ord : (emptyBuffers s).ord = s.ord := rfl
@[simp] theorem emptyBuffers_mtft : (emptyBuffers s).mtft = s.mtft := rfl
@[simp] theorem emptyBuffers_inputs : (emptyBuffers s).inputs = s.inputs := rfl
@[simp] theorem emptyBuffers_responses : (emptyBuffers s).responses = s.responses := rfl
end emptyBuffersFields

section sortBlockFields
@[simp] theorem sortBlock_n : (sortBlock s).n = s.n := rfl
@[simp] theorem sortBlock_fri : (sortBlock s).fri = s.fri := rfl
@[simp] theorem sortBlock_a : (sortBlock s).a = s.a := rfl
@[simp] theorem sortBlock_b : (sortBlock s).b = s.b := rfl
@[simp] theorem sortBlock_d : (sortBlock s).d = s.d := rfl
@[simp] theorem sortBlock_ordv : (sortBlock s).ordv = true := rfl
@[simp] theorem sortBlock_estk : (sortBlock s).estk = s.estk := rfl
@[simp] theorem sortBlock_ecause : (sortBlock s).ecause = s.ecause := rfl
@[simp] theorem sortBlock_ibuf : (sortBlock s).ibuf = s.ibuf := rfl
@[simp] theorem sortBlock_obuf : (sortBlock s).obuf = s.obuf := rfl
@[simp] theorem sortBlock_orp : (sortBlock s).orp = s.orp := rfl
@[simp] theorem sortBlock_ord : (sortBlock s).ord = (suffixOrder (blk s)).map word := rfl
@[simp] theorem sortBlock_mtft : (sortBlock s).mtft = s.mtft := rfl
@[simp] theorem sortBlock_inputs : (sortBlock s).inputs = s.inputs := rfl
@[simp] theorem sortBlock_responses : (sortBlock s).responses = s.responses := rfl
end sortBlockFields

section presentFields
variable (cmd : Word64)
@[simp] theorem present_n : (present cmd s).n = s.n := rfl
@[simp] theorem present_fri : (present cmd s).fri = s.fri := rfl
@[simp] theorem present_a : (present cmd s).a = s.a := rfl
@[simp] theorem present_b : (present cmd s).b = s.b := rfl
@[simp] theorem present_d : (present cmd s).d = s.d := rfl
@[simp] theorem present_ordv : (present cmd s).ordv = s.ordv := rfl
@[simp] theorem present_estk : (present cmd s).estk = s.estk := rfl
@[simp] theorem present_ecause : (present cmd s).ecause = s.ecause := rfl
@[simp] theorem present_ibuf : (present cmd s).ibuf = s.ibuf := rfl
@[simp] theorem present_obuf : (present cmd s).obuf = s.obuf := rfl
@[simp] theorem present_orp : (present cmd s).orp = s.orp := rfl
@[simp] theorem present_ord : (present cmd s).ord = s.ord := rfl
@[simp] theorem present_mtft : (present cmd s).mtft = s.mtft := rfl
@[simp] theorem present_inputs : (present cmd s).inputs = .command cmd :: s.inputs := rfl
@[simp] theorem present_responses : (present cmd s).responses = s.responses := rfl
end presentFields

@[simp] theorem reset_n : State.reset.n = 0 := rfl
@[simp] theorem reset_fri : State.reset.fri = 0 := rfl
@[simp] theorem reset_a : State.reset.a = 0 := rfl
@[simp] theorem reset_b : State.reset.b = 0 := rfl
@[simp] theorem reset_d : State.reset.d = 0 := rfl
@[simp] theorem reset_ordv : State.reset.ordv = false := rfl
@[simp] theorem reset_estk : State.reset.estk = false := rfl
@[simp] theorem reset_ecause : State.reset.ecause = 0 := rfl
@[simp] theorem reset_ibuf : State.reset.ibuf = [] := rfl
@[simp] theorem reset_obuf : State.reset.obuf = [] := rfl
@[simp] theorem reset_orp : State.reset.orp = 0 := rfl
@[simp] theorem reset_ord : State.reset.ord = [] := rfl
@[simp] theorem reset_mtft : State.reset.mtft = identityTable := rfl
@[simp] theorem reset_inputs : State.reset.inputs = [] := rfl
@[simp] theorem reset_responses : State.reset.responses = [] := rfl

end Sys2Proof.Machine
end

