-- ==== Sys2Proof/Laws/Ops.lean ====
section
/-! SUPPORT. What each shared operation can do, said once: the capacity, the two input checks, the reads and the writes. -/

namespace Sys2Proof.Machine

open Sys2Proof

/-! ## The capacity -/

theorem one_le_NMAX : 1 ≤ NMAX := by unfold NMAX; omega

theorem NMAX_le : NMAX ≤ 4294967291 := by unfold NMAX; omega

/-- Every capacity the spec allows is the capacity of some build: the constant shuts none out (assumption 1). -/
theorem every_capacity_has_a_shortfall (k : Nat) (h1 : 1 ≤ k) (h2 : k ≤ 4294967291) :
    ∃ c : Fin 4294967291, 4294967290 - c.val + 1 = k :=
  ⟨⟨4294967291 - k, by omega⟩, by dsimp only; omega⟩

@[simp] theorem word_toNat (k : Nat) : (word k).toNat = k % 4294967296 := by simp [word]

theorem word_toNat_of_lt {k : Nat} (h : k < 4294967296) : (word k).toNat = k := by
  rw [word_toNat, Nat.mod_eq_of_lt h]

/-! ## The input checks -/

/-- `BLKCHK` passes exactly when the declared and the loaded length agree and are not zero. -/
theorem blkchk_eq_none {s : State} : blkchk s = none ↔ s.ibuf.length = s.n.toNat ∧ s.n ≠ 0 := by
  unfold blkchk
  split
  · simp_all
  · split <;> simp_all

/-- After `BLKCHK` the block is the whole input. -/
theorem blk_eq_ibuf {s : State} (h : s.ibuf.length = s.n.toNat) : blk s = s.ibuf := by
  simp [blk, ← h]

theorem blkchk_length {s : State} (h : s.ibuf.length ≠ s.n.toNat) : blkchk s = some .iiLength := by
  simp [blkchk, h]

theorem blkchk_empty {s : State} (h : s.ibuf.length = s.n.toNat) (h0 : s.n = 0) : blkchk s = some .iiEmpty := by
  have h' : ¬ s.ibuf.length ≠ s.n.toNat := fun hc => hc h
  unfold blkchk
  rw [if_neg h', if_pos h0]

/-- The causes `BLKCHK` can raise. -/
theorem blkchk_cases (s : State) :
    blkchk s = some .iiLength ∨ blkchk s = some .iiEmpty ∨ (blkchk s = none ∧ blk s = s.ibuf) := by
  by_cases h : s.ibuf.length = s.n.toNat
  · by_cases h0 : s.n = 0
    · exact .inr (.inl (blkchk_empty h h0))
    · exact .inr (.inr ⟨blkchk_eq_none.mpr ⟨h, h0⟩, blk_eq_ibuf h⟩)
  · exact .inl (blkchk_length h)

/-- `INVCHK` passes exactly on a full input with a row index inside the block, and yields that index. -/
theorem invchk_eq_ok {s : State} {f : Word} :
    invchk s = .ok f ↔ s.ibuf.length = s.n.toNat + 4 ∧ s.n ≠ 0 ∧ ofBe32 s.ibuf < s.n ∧ f = ofBe32 s.ibuf := by
  unfold invchk
  split
  · simp_all
  · split
    · simp_all
    · split
      · rename_i h1 h2 h3
        simp only [reduceCtorEq, false_iff, not_and]
        intro _ _ hlt
        exact absurd hlt (BitVec.not_lt.mpr h3)
      · rename_i h1 h2 h3
        simp only [Except.ok.injEq]
        refine ⟨fun h => ⟨not_not.mp h1, h2, BitVec.not_le.mp h3, h.symm⟩, fun h => h.2.2.2.symm⟩

/-! ## Registers, output, order -/

/-- A number names a register exactly when it is that register's number (10_state.md R20). -/
theorem regOf_number (r : Reg) : regOf r.number = some r := by cases r <;> rfl

/-- Reading the output gives a byte exactly when the read pointer lies before its end. -/
theorem obufNext_eq_some {s : State} {v : Byte} : obufNext s = some v ↔ s.obuf[s.orp.toNat]? = some v := Iff.rfl

theorem obufNext_eq_none {s : State} : obufNext s = none ↔ s.obuf.length ≤ s.orp.toNat := by
  simp [obufNext]

/-- An order element is read exactly when the order is valid and the index is inside the block. -/
theorem ordRead_eq_some {s : State} {k v : Word} :
    ordRead k s = some v ↔ s.ordv = true ∧ k < s.n ∧ s.ord[k.toNat]? = some v := by
  unfold ordRead
  split
  · simp_all
  · split
    · rename_i h1 h2
      simp only [reduceCtorEq, false_iff, not_and]
      intro _ hlt
      exact absurd hlt (BitVec.not_lt.mpr h2)
    · rename_i h1 h2
      simp_all [BitVec.not_le.mp h2]

end Sys2Proof.Machine
end

