-- ==== Sys2Proof/Laws/Exec.lean ====
section
/-! SUPPORT. What a command can do, said once: it raises one of its own causes, which changes the error record alone, or it
succeeds with the effect its rule gives it. Proofs about every command start from `exec_cases`. -/

namespace Sys2Proof.Machine

open Sys2Proof

/-- The causes a command of its own can raise (60_exceptions.md R231, R237). -/
def MayRaise : Instr → Cause → Prop
  | .setr _ _, c => c = .icReg ∨ c = .icValue
  | .getr _, c => c = .icReg
  | .putb _, c => c = .icOverflow
  | .getb, c => c = .icUnderflow
  | .srkRdord _, c => c = .icOrd
  | .srkSort, c | .bwtFwd, c => c = .iiLength ∨ c = .iiEmpty
  | .srkChr, c | .srkCmp, c | .srkCmpr, c => c = .iiLength ∨ c = .iiEmpty ∨ c = .icOperand
  | .bwtInv, c => c = .iiLength ∨ c = .iiEmpty ∨ c = .iiIndex
  | .nop, _ | .reset, _ | .clr, _ | .clrerr, _ | .mtfInit, _ | .mtfEnc _, _ | .mtfDec _, _ => False

/-- What a command that succeeds from `s` leaves before its response: the value it returns and the state `u`. -/
def Effect : Instr → State → Word → State → Prop
  | .nop, s, v, u => v = 0 ∧ u = s
  | .reset, s, v, u => v = 0 ∧ u = resetBlock s
  | .clr, s, v, u => v = 0 ∧ u = clearOrdv (emptyBuffers s)
  | .clrerr, s, v, u => v = 0 ∧ u = clearError s
  | .setr reg x, s, v, u =>
    ∃ r, regOf reg = some r ∧ r.writable = true ∧ (r = .n → x.toNat ≤ NMAX) ∧ v = 0 ∧ u = writeReg r x s
  | .getr reg, s, v, u => ∃ r, regOf reg = some r ∧ v = readReg r s ∧ u = s
  | .putb x, s, v, u => s.ibuf.length ≠ NMAX + 4 ∧ v = 0 ∧ u = clearOrdv (ibufAppend x s)
  | .getb, s, v, u => ∃ x, obufNext s = some x ∧ v = zext x ∧ u = advanceOrp s
  | .srkSort, s, v, u => blkchk s = none ∧ v = 0 ∧ u = sortBlock s
  | .srkRdord k, s, v, u => ordRead k s = some v ∧ u = s
  | .srkChr, s, v, u => chrCheck s = none ∧ v = charWord (charAt (blk s) s.a.toNat s.d.toNat) ∧ u = s
  | .srkCmp, s, v, u =>
    cmpCheck s = none ∧ v = threeWay (compareAt (blk s) s.a.toNat s.b.toNat s.d.toNat) ∧ u = s
  | .srkCmpr, s, v, u => cmpCheck s = none ∧ v = threeWay (compareRotations (blk s) s.a.toNat s.b.toNat) ∧ u = s
  | .bwtFwd, s, v, u =>
    blkchk s = none ∧ v = 0 ∧
      ∃ fri, fri = word (firstRowIndex (suffixOrder (blk s))) ∧
        u = setOutput (serialise fri (lastColumn (blk s) (suffixOrder (blk s)))) { sortBlock s with fri := fri }
  | .bwtInv, s, v, u =>
    ∃ f, invchk s = .ok f ∧ v = 0 ∧ u = setOutput (inverseTransform f.toNat (lcol s)) { s with fri := f }
  | .mtfInit, s, v, u => v = 0 ∧ u = { s with mtft := identityTable }
  | .mtfEnc x, s, v, u =>
    ∃ i, i = tableFind s.mtft x ∧ v = word i.val ∧ u = { s with mtft := frontMove s.mtft i }
  | .mtfDec k, s, v, u =>
    ∃ i, i = tableIndex k ∧ v = zext s.mtft[i.val] ∧ u = { s with mtft := frontMove s.mtft i }

theorem chrCheck_raises {s : State} {c : Cause} (h : chrCheck s = some c) : MayRaise .srkChr c := by
  unfold chrCheck at h
  rcases blkchk_cases s with hb | hb | ⟨hb, -⟩ <;> rw [hb] at h
  · exact .inl (Option.some.inj h).symm
  · exact .inr (.inl (Option.some.inj h).symm)
  · split at h <;> simp_all [MayRaise]

theorem cmpCheck_raises {s : State} {c : Cause} (h : cmpCheck s = some c) : MayRaise .srkCmp c := by
  unfold cmpCheck at h
  rcases blkchk_cases s with hb | hb | ⟨hb, -⟩ <;> rw [hb] at h
  · exact .inl (Option.some.inj h).symm
  · exact .inr (.inl (Option.some.inj h).symm)
  · split at h <;> simp_all [MayRaise]

theorem blkchk_raises {s : State} {c : Cause} (h : blkchk s = some c) : c = .iiLength ∨ c = .iiEmpty := by
  rcases blkchk_cases s with hb | hb | ⟨hb, -⟩ <;> rw [hb] at h
  · exact .inl (Option.some.inj h).symm
  · exact .inr (Option.some.inj h).symm
  · exact absurd h (by simp)

theorem invchk_raises {s : State} {c : Cause} (h : invchk s = .error c) :
    c = .iiLength ∨ c = .iiEmpty ∨ c = .iiIndex := by
  unfold invchk at h
  repeat' split at h
  all_goals simp_all

/-- Every command answers a next state: it raises one of its causes, or it succeeds with its effect. -/
theorem exec_cases (i : Instr) (s : State) :
    (∃ c, MayRaise i c ∧ exec i s = .next (raise (opcode i) c s)) ∨
      ∃ v u, Effect i s v u ∧ exec i s = .next (succeed v u) := by
  cases i with
  | nop => exact .inr ⟨_, _, ⟨rfl, rfl⟩, rfl⟩
  | reset => exact .inr ⟨_, _, ⟨rfl, rfl⟩, rfl⟩
  | clr => exact .inr ⟨_, _, ⟨rfl, rfl⟩, rfl⟩
  | clrerr => exact .inr ⟨_, _, ⟨rfl, rfl⟩, rfl⟩
  | setr reg x =>
    simp only [exec, execSetr]
    split
    · exact .inl ⟨_, .inl rfl, rfl⟩
    · split
      · exact .inl ⟨_, .inl rfl, rfl⟩
      · split
        · exact .inl ⟨_, .inr rfl, rfl⟩
        · rename_i r hr hw hv
          refine .inr ⟨_, _, ⟨r, hr, by simpa using hw, fun hn => ?_, rfl, rfl⟩, rfl⟩
          exact Nat.le_of_not_lt fun hlt => hv ⟨hn, hlt⟩
  | getr reg =>
    simp only [exec, execGetr]
    split
    · exact .inl ⟨_, rfl, rfl⟩
    · exact .inr ⟨_, _, ⟨_, ‹_›, rfl, rfl⟩, rfl⟩
  | putb x =>
    simp only [exec, execPutb]
    split
    · exact .inl ⟨_, rfl, rfl⟩
    · exact .inr ⟨_, _, ⟨‹_›, rfl, rfl⟩, rfl⟩
  | getb =>
    simp only [exec, execGetb]
    split
    · exact .inl ⟨_, rfl, rfl⟩
    · exact .inr ⟨_, _, ⟨_, ‹_›, rfl, rfl⟩, rfl⟩
  | srkSort =>
    simp only [exec, execSrkSort]
    split
    · exact .inl ⟨_, blkchk_raises ‹_›, rfl⟩
    · exact .inr ⟨_, _, ⟨‹_›, rfl, rfl⟩, rfl⟩
  | srkRdord k =>
    simp only [exec, execSrkRdord]
    split
    · exact .inl ⟨_, rfl, rfl⟩
    · exact .inr ⟨_, _, ⟨‹_›, rfl⟩, rfl⟩
  | srkChr =>
    simp only [exec, execSrkChr]
    split
    · exact .inl ⟨_, chrCheck_raises ‹_›, rfl⟩
    · exact .inr ⟨_, _, ⟨‹_›, rfl, rfl⟩, rfl⟩
  | srkCmp =>
    simp only [exec, execSrkCmp]
    split
    · exact .inl ⟨_, cmpCheck_raises ‹_›, rfl⟩
    · exact .inr ⟨_, _, ⟨‹_›, rfl, rfl⟩, rfl⟩
  | srkCmpr =>
    simp only [exec, execSrkCmpr]
    split
    · exact .inl ⟨_, cmpCheck_raises ‹_›, rfl⟩
    · exact .inr ⟨_, _, ⟨‹_›, rfl, rfl⟩, rfl⟩
  | bwtFwd =>
    simp only [exec, execBwtFwd]
    split
    · exact .inl ⟨_, blkchk_raises ‹_›, rfl⟩
    · exact .inr ⟨_, _, ⟨‹_›, rfl, _, rfl, rfl⟩, rfl⟩
  | bwtInv =>
    simp only [exec, execBwtInv]
    split
    · exact .inl ⟨_, invchk_raises ‹_›, rfl⟩
    · exact .inr ⟨_, _, ⟨_, ‹_›, rfl, rfl⟩, rfl⟩
  | mtfInit => exact .inr ⟨_, _, ⟨rfl, rfl⟩, rfl⟩
  | mtfEnc x => exact .inr ⟨_, _, ⟨_, rfl, rfl, rfl⟩, rfl⟩
  | mtfDec k => exact .inr ⟨_, _, ⟨_, rfl, rfl, rfl⟩, rfl⟩

/-- The form of `exec_cases` for a next state in hand. -/
theorem exec_next_cases {i : Instr} {s t : State} (h : exec i s = .next t) :
    (∃ c, MayRaise i c ∧ t = raise (opcode i) c s) ∨ ∃ v u, Effect i s v u ∧ t = succeed v u := by
  rcases exec_cases i s with ⟨c, hc, hx⟩ | ⟨v, u, hu, hx⟩ <;> rw [hx] at h <;> injection h with h
  · exact .inl ⟨c, hc, h.symm⟩
  · exact .inr ⟨v, u, hu, h.symm⟩

end Sys2Proof.Machine
end

