-- ==== Sys2Proof/Laws/Ends.lean ====
section
/-! SUPPORT. The two endings of a transaction in the words the statements use, the classification of
register numbers, and one lemma that says everything a step on a presented command word can do. -/

namespace Sys2Proof.Machine

/-- A successful response is the value, zero-extended (R36, R37). -/
theorem rspOk_eq (v : Word) : rspOk v = v.setWidth 64 := by
  apply BitVec.eq_of_getLsbD_eq; intro i hi
  simp only [rspOk, BitVec.getLsbD_append, BitVec.getLsbD_setWidth]
  split <;> simp_all

/-- A failed response is bit 63 and the cause in bits 39..32 (R38). -/
theorem rspErr_eq (c : Cause) :
    rspErr c.code = 0x8000000000000000#64 ||| (c.code.setWidth 64 <<< 32) := by
  cases c <;> rfl

/-- `succeed` is the ending the statements call `afterOk`. -/
theorem succeed_eq_afterOk (v : Word) (s : State) : succeed v s = afterOk s v := by
  simp [succeed, respond, afterOk, rspOk_eq]

/-- `raise` is the ending the statements call `afterError`. -/
theorem raise_eq_afterError (op : Byte) (c : Cause) (s : State) :
    raise op c s = afterError s op c.code := by
  simp [raise, respond, recordError, afterError, rspErr_eq, ecauseOf]

theorem errBit_rspOk (v : Word) : errBit (rspOk v) = false := by
  rw [rspOk_eq]; simp [errBit]

theorem errBit_rspErr (c : Cause) : errBit (rspErr c.code) = true := by
  cases c <;> rfl

theorem causeField_rspErr (c : Cause) : causeField (rspErr c.code) = c.code := by
  cases c <;> rfl

/-- A register number is unassigned (5 to 7, 14 and above) or the number of one register (R11). -/
theorem regOf_cases (r : Byte) :
    (regOf r = none ∧ (5 ≤ r.toNat ∧ r.toNat ≤ 7 ∨ 14 ≤ r.toNat)) ∨
      ∃ q, regOf r = some q ∧ r = q.number := by
  unfold regOf
  split <;> first
    | exact .inr ⟨_, rfl, by apply BitVec.eq_of_toNat_eq; simpa [Reg.number] using ‹_›⟩
    | exact .inl ⟨rfl, by simp only [imp_false] at *; omega⟩

/-- The opcode of a decoded command is the operation field of its word. -/
theorem opcode_of_decode {w : Word64} {i : Instr}
    (h : decode w = .ok i) : opcode i = opField w := by
  unfold decode at h
  split at h
  · simp at h
  · rename_i j hj
    split at h
    · injection h with h; subst h
      unfold instrOf at hj
      have : ∀ k, (fieldsOf w).op.toNat = k → opField w = BitVec.ofNat 8 k := by
        intro k hk; apply BitVec.eq_of_toNat_eq; rw [← hk]; simp [fieldsOf]
      split at hj <;> first | (injection hj with hj; subst hj; rw [this _ ‹_›]; rfl) | simp at hj
    · simp at h

/-- Everything a step on a presented word can do: record one error, or one command's effect and a success. -/
theorem step_command_cases {s t : State} {w : Word64} {rest : List HostEvent}
    (hi : s.inputs = .command w :: rest) (h : step s = .next t) :
    (∃ c, t = raise (opField w) c { s with inputs := rest }) ∨
      ∃ i v u, decode w = .ok i ∧ Effect i { s with inputs := rest } v u ∧ t = succeed v u := by
  simp only [step, hi, accept, transact] at h
  split at h
  · rename_i i hd
    rcases exec_next_cases h with ⟨c, -, ht⟩ | ⟨v, u, hu, ht⟩
    · exact .inl ⟨c, by rw [← opcode_of_decode hd]; exact ht⟩
    · exact .inr ⟨i, v, u, hd, hu, ht⟩
  · injection h with h; exact .inl ⟨_, h.symm⟩

/-- No effect touches the responses or the events still to come; only the ending does. -/
theorem effect_responses_inputs {i : Instr} {s u : State} {v : Word}
    (h : Effect i s v u) : u.responses = s.responses ∧ u.inputs = s.inputs := by
  cases i <;> simp only [Effect] at h <;> try (obtain ⟨_, rfl⟩ := h; simp)
  all_goals (first | (obtain ⟨_, _, rfl⟩ := h; simp) | (obtain ⟨_, _, _, rfl⟩ := h; simp) | (obtain ⟨_, _, _, _, rfl⟩ := h; simp)|skip)
  · obtain ⟨r, hr, _, _, _, rfl⟩ := h; cases r <;> simp [writeReg]

end Sys2Proof.Machine
end

