-- ==== Sys2Proof/Laws/Memory.lean ====
section
/-! SUPPORT. Every operation on the buffers keeps their form, and reset has it. -/

namespace Sys2Proof.Machine

open Sys2Proof

/-- The form of the buffers depends on the buffers and the read pointer alone. -/
theorem Memory.wf_congr {s t : State} (hi : t.ibuf = s.ibuf) (ho : t.obuf = s.obuf) (hp : t.orp = s.orp) :
    Memory.wf t ↔ Memory.wf s := by
  simp [Memory.wf, hi, ho, hp]

theorem reset_wf : Memory.wf State.reset := by simp [Memory.wf]

theorem respond_wf {s : State} (r : Word64) (h : Memory.wf s) : Memory.wf (respond r s) := h

theorem raise_wf {s : State} (op : Byte) (c : Cause) (h : Memory.wf s) : Memory.wf (raise op c s) := h

theorem resetBlock_wf (s : State) : Memory.wf (resetBlock s) := by simp [Memory.wf]

theorem emptyBuffers_wf (s : State) : Memory.wf (emptyBuffers s) := by simp [Memory.wf]

/-- Appending keeps the form when the input is not full, which is what `PUTB` checks (40_system_and_buffer.md R126). -/
theorem ibufAppend_wf {s : State} (x : Byte) (h : Memory.wf s) (hfull : s.ibuf.length ≠ NMAX + 4) :
    Memory.wf (ibufAppend x s) := by
  obtain ⟨h1, h2, h3⟩ := h
  refine ⟨?_, h2, h3⟩
  simp only [ibufAppend_ibuf, List.length_append, List.length_singleton]
  omega

/-- Advancing the read pointer keeps the form when a byte was there to read (40_system_and_buffer.md R127). -/
theorem advanceOrp_wf {s : State} {v : Byte} (h : Memory.wf s) (hv : obufNext s = some v) : Memory.wf (advanceOrp s) := by
  obtain ⟨h1, h2, h3⟩ := h
  have hlt : s.orp.toNat < s.obuf.length := by
    obtain ⟨hlt, -⟩ := List.getElem?_eq_some_iff.mp hv
    exact hlt
  refine ⟨h1, h2, ?_⟩
  simp only [advanceOrp_orp, advanceOrp_obuf, BitVec.toNat_add]
  exact Nat.le_trans (Nat.mod_le _ _) hlt

/-- New output keeps the form when it fits (10_state.md R33). -/
theorem setOutput_wf {s : State} {l : List Byte} (h : Memory.wf s) (hl : l.length ≤ NMAX + 4) :
    Memory.wf (setOutput l s) := by
  refine ⟨h.1, by simpa using hl, by simp⟩

/-- Reading a byte of the input back: what stood there stays, and the new byte stands at `ILEN`. -/
theorem ibufAppend_read (s : State) (x : Byte) (i : Nat) :
    (ibufAppend x s).ibuf[i]? = if i = s.ibuf.length then some x else s.ibuf[i]? := by
  rcases Nat.lt_trichotomy i s.ibuf.length with h | h | h
  · simp [List.getElem?_append_left h, Nat.ne_of_lt h]
  · simp [h]
  · simp [List.getElem?_eq_none (show s.ibuf.length ≤ i by omega), show i ≠ s.ibuf.length by omega]
    omega

end Sys2Proof.Machine
end

