-- ==== Sys2Proof/Laws/PerInstr.lean ====
section
/-! SUPPORT. Per command: the fields of its word, and the command and must-be-zero bits read back from them. -/

namespace Sys2Proof.Laws.WordFields

open Sys2Proof

/-- The word of the command has the command's own four fields; the opcode table gives the command back from them, and its
must-be-zero bits are zero. -/
def Statement (i : Instr) : Prop :=
  fieldsOf (encode i) = ⟨opcode i, regOperand i, 0, immOperand i⟩ ∧
    instrOf ⟨opcode i, regOperand i, 0, immOperand i⟩ = some i ∧
      mustBeZeroOk i.format ⟨opcode i, regOperand i, 0, immOperand i⟩ = true

/-- A byte in `IMM[7:0]` leaves `IMM[31:8]` zero. -/
theorem high_bits_of_byte (x : Byte) : (x.setWidth 32 : Word).extractLsb' 8 24 = 0 := by
  apply BitVec.eq_of_getLsbD_eq
  intro i hi
  simp only [BitVec.getLsbD_extractLsb', BitVec.getLsbD_setWidth]
  simp

theorem of_no_operand {i : Instr} (hf : i.format = .z) (hr : regOperand i = 0) (hm : immOperand i = 0)
    (hi : instrOf ⟨opcode i, 0, 0, 0⟩ = some i) : Statement i := by
  refine ⟨fieldsOf_wordOf _, ?_, ?_⟩ <;> simp only [hr, hm, hf]
  · exact hi
  · rfl

theorem of_byte {i : Instr} {x : Byte} (hf : i.format = .b) (hr : regOperand i = 0) (hm : immOperand i = x.setWidth 32)
    (hi : ∀ f : CommandFields, f.op = opcode i → byteOperand f = x → instrOf f = some i) : Statement i := by
  refine ⟨fieldsOf_wordOf _, ?_, ?_⟩ <;> simp only [hr, hm, hf]
  · exact hi _ rfl (byteOperand_setWidth _ _ _ _)
  · simp [mustBeZeroOk, high_bits_of_byte]

theorem nop : Statement .nop := of_no_operand rfl rfl rfl rfl
theorem reset : Statement .reset := of_no_operand rfl rfl rfl rfl
theorem clr : Statement .clr := of_no_operand rfl rfl rfl rfl
theorem clrerr : Statement .clrerr := of_no_operand rfl rfl rfl rfl
theorem setr (reg : Byte) (imm32 : Word) : Statement (.setr reg imm32) := ⟨fieldsOf_wordOf _, rfl, rfl⟩
theorem getr (reg : Byte) : Statement (.getr reg) := ⟨fieldsOf_wordOf _, rfl, rfl⟩
theorem putb (imm8 : Byte) : Statement (.putb imm8) :=
  of_byte rfl rfl rfl (by rintro ⟨op, reg, rsv, imm⟩ rfl h; exact congrArg (fun x => some (Instr.putb x)) h)
theorem getb : Statement .getb := of_no_operand rfl rfl rfl rfl
theorem srkSort : Statement .srkSort := of_no_operand rfl rfl rfl rfl
theorem srkRdord (imm32 : Word) : Statement (.srkRdord imm32) := ⟨fieldsOf_wordOf _, rfl, rfl⟩
theorem srkChr : Statement .srkChr := of_no_operand rfl rfl rfl rfl
theorem srkCmp : Statement .srkCmp := of_no_operand rfl rfl rfl rfl
theorem srkCmpr : Statement .srkCmpr := of_no_operand rfl rfl rfl rfl
theorem bwtFwd : Statement .bwtFwd := of_no_operand rfl rfl rfl rfl
theorem bwtInv : Statement .bwtInv := of_no_operand rfl rfl rfl rfl
theorem mtfInit : Statement .mtfInit := of_no_operand rfl rfl rfl rfl
theorem mtfEnc (imm8 : Byte) : Statement (.mtfEnc imm8) :=
  of_byte rfl rfl rfl (by rintro ⟨op, reg, rsv, imm⟩ rfl h; exact congrArg (fun x => some (Instr.mtfEnc x)) h)
theorem mtfDec (imm8 : Byte) : Statement (.mtfDec imm8) :=
  of_byte rfl rfl rfl (by rintro ⟨op, reg, rsv, imm⟩ rfl h; exact congrArg (fun x => some (Instr.mtfDec x)) h)

end Sys2Proof.Laws.WordFields
end

