-- ==== Sys2Proof/Tests/Slice0.lean ====
section
/-! SUPPORT. The model's own tests, their expected values from the encodings and test vectors of spec/ (30_encoding.md R98,
R108; 95_test_vectors.md), and for every statement with hypotheses a state and operands that meet them. -/

namespace Sys2Proof.Tests

open Sys2Proof Sys2Proof.Machine

/-! ## Which words are commands: one ill-formed word a check (30_encoding.md R99, R100; 95_test_vectors.md 2.6) -/

theorem test_wellFormed_accepts : wellFormedCommand 0x0802000000000003 = true := by decide

theorem test_wellFormed_refuses_reserved_opcode : wellFormedCommand 0x0400000000000000 = false := by decide

theorem test_wellFormed_refuses_reg_in_format_z : wellFormedCommand 0x0001000000000000 = false := by decide

theorem test_wellFormed_refuses_reg_in_format_w : wellFormedCommand 0x2101000000000000 = false := by decide

theorem test_wellFormed_refuses_reg_in_format_b : wellFormedCommand 0x4101000000000042 = false := by decide

theorem test_wellFormed_refuses_rsv : wellFormedCommand 0x0100000100000000 = false := by decide

theorem test_wellFormed_refuses_rsv_in_format_rw : wellFormedCommand 0x0800000100000000 = false := by decide

theorem test_wellFormed_refuses_imm_in_format_z : wellFormedCommand 0x0000000000000001 = false := by decide

theorem test_wellFormed_refuses_imm_in_format_r : wellFormedCommand 0x0900000000000001 = false := by decide

theorem test_wellFormed_refuses_imm_above_byte : wellFormedCommand 0x1000000000000100 = false := by decide

/-! ## Decoding: every command by a word the spec prints (30_encoding.md R108; 95_test_vectors.md 2.7) -/

theorem test_decode_nop : decode 0x0000000000000000 = .ok .nop := by rfl

theorem test_decode_reset : decode 0x0100000000000000 = .ok .reset := by rfl

theorem test_decode_clr : decode 0x0200000000000000 = .ok .clr := by rfl

theorem test_decode_clrerr : decode 0x0300000000000000 = .ok .clrerr := by rfl

theorem test_decode_setr : decode 0x08030000FFFFFFFF = .ok (.setr 3 0xFFFFFFFF) := by rfl

theorem test_decode_getr : decode 0x0909000000000000 = .ok (.getr 9) := by rfl

theorem test_decode_putb : decode 0x10000000000000FF = .ok (.putb 0xFF) := by rfl

theorem test_decode_getb : decode 0x1100000000000000 = .ok .getb := by rfl

theorem test_decode_srkSort : decode 0x2000000000000000 = .ok .srkSort := by rfl

theorem test_decode_srkRdord : decode 0x21000000FFFFFFFF = .ok (.srkRdord 0xFFFFFFFF) := by rfl

theorem test_decode_srkChr : decode 0x2200000000000000 = .ok .srkChr := by rfl

theorem test_decode_srkCmp : decode 0x2300000000000000 = .ok .srkCmp := by rfl

theorem test_decode_srkCmpr : decode 0x2400000000000000 = .ok .srkCmpr := by rfl

theorem test_decode_bwtFwd : decode 0x3000000000000000 = .ok .bwtFwd := by rfl

theorem test_decode_bwtInv : decode 0x3100000000000000 = .ok .bwtInv := by rfl

theorem test_decode_mtfInit : decode 0x4000000000000000 = .ok .mtfInit := by rfl

theorem test_decode_mtfEnc : decode 0x4100000000000042 = .ok (.mtfEnc 66) := by rfl

theorem test_decode_mtfDec : decode 0x42000000000000FF = .ok (.mtfDec 255) := by rfl

/-- 95_test_vectors.md E2: the opcode is checked before the reserved bits. -/
theorem test_decode_opcode_first : decode 0xFF00FFFF12345678 = .error .reservedOpcode := by rfl

theorem test_decode_reserved_after_mtf : decode 0x4300000000000000 = .error .reservedOpcode := by rfl

theorem test_decode_field_error : decode 0x2101000000000000 = .error .nonzeroField := by rfl

/-! ## One step at a time (95_test_vectors.md) -/

/-- A state with a block loaded and the comparator operands set. -/
def loaded (block : List Byte) (a b d : Word) : State :=
  { State.reset with n := word block.length, ibuf := block, a := a, b := b, d := d }

/-- A state with an input loaded for `BWT.INV`. -/
def loadedPair (n : Word) (input : List Byte) : State := { State.reset with n := n, ibuf := input }

/-- What is left of a step to look at: a field of the next state. -/
def seen {α : Type} (f : State → α) : Host.Outcome State Fault Refusal → Option α
  | .next t => some (f t)
  | .fault _ => none
  | .refused _ => none

/-- Run one command word at a state. -/
def present1 {α : Type} (f : State → α) (cmd : Nat) (s : State) : Option α := seen f (step (s.withFetchWord 64 cmd))

/-- "ABRACADABRA!" -/
def abracadabra : List Byte := [0x41, 0x42, 0x52, 0x41, 0x43, 0x41, 0x44, 0x41, 0x42, 0x52, 0x41, 0x21]

/-- E1: the error response and the error record of a reserved opcode. -/
theorem test_step_reserved_opcode :
    present1 (fun t => (t.responses, t.ecause, t.estk)) 0x0400000000000000 State.reset =
      some ([0x8000001000000000], 0x0410, true) := by decide

/-- E5: a `RESET` with a reserved bit set resets nothing. -/
theorem test_step_reset_with_field :
    present1 (fun t => (t.responses, t.ecause, t.n)) 0x0100000100000000 { State.reset with n := 5 } =
      some ([0x8000001100000000], 0x0111, 5) := by decide

/-- A1, with an error recorded: `NOP` does not clear it. -/
theorem test_nop : present1 (fun t => (t.responses, t.estk)) 0x0 { State.reset with estk := true } =
    some ([0], true) := by decide

/-- A16. -/
theorem test_reset : present1 (fun t => (t.n, t.a, t.estk, t.ecause, t.responses)) 0x0100000000000000
    { State.reset with n := 64, a := 0xFFFFFFFF, estk := true, ecause := 0x1115 } =
      some (0, 0, false, 0, [0]) := by decide

/-- A15: the buffers are emptied, `N` and the error record stay. -/
theorem test_clr : present1 (fun t => (t.n, t.ibuf, t.estk)) 0x0200000000000000
    { State.reset with n := 64, ibuf := [0x00, 0xFF], estk := true } = some (64, [], true) := by decide

/-- A11. -/
theorem test_clrerr : present1 (fun t => (t.estk, t.ecause)) 0x0300000000000000
    { State.reset with estk := true, ecause := 0x0912 } = some (false, 0) := by decide

/-- A4, in the form every build has: the capacity itself is a legal length. -/
theorem test_setr_capacity (s : State) : seen State.n (execSetr 0 (word NMAX) s) = some (word NMAX) := by
  have h := NMAX_le
  have hw : (word NMAX).toNat = NMAX := word_toNat_of_lt (by omega)
  simp [execSetr, regOf, Reg.writable, hw, seen, writeReg]

/-- A5, for a build with `NMAX = 64`: the length above it is refused and `N` stays. -/
theorem test_setr_above_capacity (h : NMAX = 64) :
    seen (fun t => (t.n, t.ecause)) (execSetr 0 65 { State.reset with n := 64 }) = some (64, 0x0813) := by
  simp [execSetr, regOf, Reg.writable, h, seen]
  decide

/-- A8, E10: `FRI` is read only. -/
theorem test_setr_read_only : present1 (fun t => (t.fri, t.ecause)) 0x0801000000000005 State.reset =
    some (0, 0x0812) := by decide

/-- A10: `STATUS` shows `ESTK` in bit 1. -/
theorem test_getr_status : present1 State.responses 0x0908000000000000 { State.reset with estk := true } = some [2] := by
  decide

/-- A9. -/
theorem test_getr_reserved : present1 (fun t => (t.responses, t.ecause)) 0x0905000000000000 State.reset =
    some ([0x8000001200000000], 0x0912) := by decide

/-- A13: bytes are appended, and a valid order goes stale. -/
theorem test_putb : present1 (fun t => (t.ibuf, t.ordv)) 0x10000000000000FF
    { State.reset with ibuf := [0x00], ordv := true } = some ([0x00, 0xFF], false) := by decide

/-- E16, for a build with `NMAX = 4`. -/
theorem test_putb_overflow (h : NMAX = 4) :
    seen (fun t => (t.ibuf.length, t.ecause)) (execPutb 0 { State.reset with ibuf := List.replicate 8 0x61 }) =
      some (8, 0x1014) := by
  simp [execPutb, h, seen]
  decide

/-- E29. -/
theorem test_getb : present1 (fun t => (t.responses, t.orp)) 0x1100000000000000
    { State.reset with obuf := [0x41, 0x80], orp := 1 } = some ([0x80], 2) := by decide

/-- E30: underflow at the end of the output. -/
theorem test_getb_underflow : present1 (fun t => (t.responses, t.orp, t.ecause)) 0x1100000000000000
    { State.reset with obuf := [0x01], orp := 1 } = some ([0x8000001500000000], 1, 0x1115) := by decide

/-- K7: bytes compare unsigned. -/
theorem test_srkSort : present1 (fun t => (t.ord, t.ordv)) 0x2000000000000000 (loaded [0x80, 0x00, 0xFF, 0x7F] 0 0 0) =
    some ([1, 3, 0, 2], true) := by decide

/-- E17: `ILEN = 8`, `N = 4`. -/
theorem test_srkSort_length : present1 (fun t => (t.ord, t.ecause)) 0x2000000000000000
    (loadedPair 4 (List.replicate 8 0x61)) = some ([], 0x2002) := by decide

/-- R166, lines 1 and 2 of the worked trace. -/
theorem test_partition_trace :
    ((sortRun abracadabra 2 (sortInit abracadabra)).ord = [11, 10, 0, 7, 5, 3, 6, 8, 9, 4, 2, 1]) ∧
    ((sortRun abracadabra 1 (sortInit abracadabra)).stack = [⟨1, 5, 1⟩, ⟨6, 11, 0⟩]) := by decide

/-- 2.2: `SRK.RDORD` after the sort of "BABA". -/
theorem test_srkRdord : present1 State.responses 0x2100000000000001
    { loaded [0x42, 0x41, 0x42, 0x41] 0 0 0 with ord := [1, 3, 2, 0], ordv := true } = some [3] := by decide

theorem test_srkRdord_end : present1 State.responses 0x2100000000000004
    { loaded [0x42, 0x41, 0x42, 0x41] 0 0 0 with ord := [1, 3, 2, 0], ordv := true } = some [0x8000001600000000] := by
  decide

/-- M4: the index wraps round the block. -/
theorem test_srkChr : present1 State.responses 0x2200000000000000 (loaded abracadabra 10 11 2) = some [0x41] := by decide

/-- M7: the sentinel at depth `n`. -/
theorem test_srkChr_sentinel : present1 State.responses 0x2200000000000000 (loaded abracadabra 0 1 12) =
    some [0xFFFFFFFF] := by decide

/-- M3. -/
theorem test_srkCmp : present1 State.responses 0x2300000000000000 (loaded abracadabra 7 0 4) = some [0xFFFFFFFF] := by
  decide

/-- M10: `B = N`. -/
theorem test_srkCmp_operand : present1 (fun t => (t.responses, t.ecause)) 0x2300000000000000 (loaded abracadabra 0 12 0) =
    some ([0x8000001700000000], 0x2317) := by decide

/-- M1: the first difference is at depth 4. -/
theorem test_srkCmpr : present1 State.responses 0x2400000000000000 (loaded abracadabra 0 7 0) = some [1] := by decide

/-- 2.2, "ABAB": equal rotations. -/
theorem test_srkCmpr_equal : present1 State.responses 0x2400000000000000 (loaded [0x41, 0x42, 0x41, 0x42] 0 2 0) =
    some [0] := by decide

/-- F12: a periodic block; the index rests on the exchange sequence (assumption 8). -/
theorem test_bwtFwd : present1 (fun t => (t.fri, t.obuf, t.orp)) 0x3000000000000000
    { loaded [0x42, 0x41, 0x42, 0x41] 0 0 0 with orp := 7 } =
      some (3, [0x00, 0x00, 0x00, 0x03, 0x42, 0x42, 0x41, 0x41], 0) := by decide

/-- F9: "BANANA". -/
theorem test_bwtFwd_banana : present1 (fun t => (t.fri, t.obuf)) 0x3000000000000000
    (loaded [0x42, 0x41, 0x4E, 0x41, 0x4E, 0x41] 0 0 0) =
      some (3, [0x00, 0x00, 0x00, 0x03, 0x4E, 0x4E, 0x42, 0x41, 0x41, 0x41]) := by decide

set_option maxRecDepth 20000 in
/-- I8. -/
theorem test_bwtInv : present1 (fun t => (t.fri, t.obuf)) 0x3100000000000000
    (loadedPair 4 [0x00, 0x00, 0x00, 0x02, 0x80, 0xFF, 0x7F, 0x00]) = some (2, [0x80, 0x00, 0xFF, 0x7F]) := by decide

/-- E24: an empty column is reported before the index. -/
theorem test_bwtInv_empty : present1 State.ecause 0x3100000000000000 (loadedPair 0 [0, 0, 0, 0]) = some 0x3101 := by decide

set_option maxRecDepth 20000 in
theorem test_mtfInit : present1 (fun t => t.mtft[3]) 0x4000000000000000
    { State.reset with mtft := frontMove identityTable 200 } = some 3 := by decide

set_option maxRecDepth 20000 in
/-- T7, first symbol: the table update is a shift, not an exchange, which would leave `2, 1, 0`. -/
theorem test_mtfEnc : present1 (fun t => (t.responses, t.mtft.toList.take 4)) 0x4100000000000002 State.reset =
    some ([2], [2, 0, 1, 3]) := by decide

set_option maxRecDepth 20000 in
/-- T3: the last entry. -/
theorem test_mtfEnc_last : present1 (fun t => (t.responses, t.mtft.toList.take 3)) 0x41000000000000FF State.reset =
    some ([255], [255, 0, 1]) := by decide

set_option maxRecDepth 20000 in
/-- 2.5: `MTF.DEC 255` twice. -/
theorem test_mtfDec : present1 (fun t => (t.responses, t.mtft.toList.take 3)) 0x42000000000000FF
    { State.reset with mtft := frontMove identityTable 255 } = some ([254], [254, 255, 0]) := by decide

/-! ## Witnesses: states and operands that meet the hypotheses of the statements -/

/-- A one-byte block, loaded, its order valid or stale. -/
def oneByte (valid : Bool) : State := { State.reset with n := 1, ibuf := [0x58], ord := [0], ordv := valid }

theorem oneByte_inv (valid : Bool) : Inv (oneByte valid) where
  declared := one_le_NMAX
  firstRow := one_le_NMAX
  buffers := ⟨by simp [oneByte], by simp [oneByte], by simp [oneByte]⟩
  order := fun _ => ⟨Nat.le_refl 1, rfl, rfl⟩
  table := List.Perm.refl _
  noError := fun _ => rfl
  someError := fun h => absurd h (by simp [oneByte])

/-- The block "BA", whose rotations differ. -/
def ba : List Byte := [0x42, 0x41]

theorem ba_not_periodic : ¬ Periodic ba := by
  rintro ⟨i, j, hi, hj, hne, heq⟩
  have hi' : i < 2 := hi
  have hj' : j < 2 := hj
  have h0 := heq 0 (by decide)
  interval_cases i <;> interval_cases j <;> first | exact absurd rfl hne | exact absurd h0 (by decide)

theorem ba_suffixOrder : IsSuffixOrder ba [1, 0] := by
  refine ⟨by decide, fun k i j hk hk1 => ?_⟩
  match k with
  | 0 =>
    obtain rfl : 1 = i := by simpa using hk
    obtain rfl : 0 = j := by simpa using hk1
    exact .inl ⟨0, by decide, fun u hu => absurd hu (by omega), 0x41, 0x42, by decide, by decide, by decide⟩
  | k + 1 => simp at hk1

theorem witness_decoded_word : decode 0x0802000000000003 = .ok (.setr 2 3) ∧
    ∃ r ∈ opcodeRows, (0x0802000000000003#64) &&& r.mask = r.pattern := by decide

/-- The ends of every range R99 lists. -/
theorem witness_ReservedOpcodesRaiseIcOpcode :
    (∀ op ∈ [0x04, 0x07, 0x0A, 0x0F, 0x12, 0x1F, 0x25, 0x2F, 0x32, 0x3F, 0x43, 0xFF], ReservedOpcode op) ∧
    ∃ (s : State) (w : Word64), ReservedOpcode (w.extractLsb' 56 8).toNat ∧ s.inputs = [.command w] :=
  ⟨by decide, present 0x0400000000000000 State.reset, 0x0400000000000000, by decide, rfl⟩

theorem witness_NonzeroReservedBitsRaiseIcField :
    ∃ r ∈ opcodeRows, r.pattern.extractLsb' 56 8 = (0x1000000000000100#64).extractLsb' 56 8 ∧
      (0x1000000000000100#64) &&& r.mask ≠ r.pattern := by decide

/-- A presented command, for the statements about a step: R90, R93, R263. -/
theorem witness_StepRunsTheDecodedCommand :
    (present 0x0802000000000003 State.reset).inputs = [.command 0x0802000000000003] ∧
      decode 0x0802000000000003 = .ok (.setr 2 3) := ⟨rfl, by rfl⟩

theorem witness_ResponseWordsKeepTheirForm :
    ∃ s t : State, s.inputs = [.command 0] ∧ step s = .next t ∧ decode 0 = .ok .nop ∧ HasResult .nop = false :=
  ⟨present 0 State.reset, _, rfl, rfl, by rfl, rfl⟩

theorem witness_ResetEventLeavesTheResetState :
    (∃ s : State, s.inputs = [.reset]) ∧ (∃ s : State, s.inputs = [.resetDuring 0x2000000000000000]) ∧
      ∃ s : State, s.inputs = [.command 0x2000000000000000] :=
  ⟨⟨{ State.reset with inputs := [.reset] }, rfl⟩,
    ⟨{ State.reset with inputs := [.resetDuring 0x2000000000000000] }, rfl⟩,
    ⟨{ State.reset with inputs := [.command 0x2000000000000000] }, rfl⟩⟩

theorem witness_BlockWaitsForACommand : (oneByte true).inputs = [] := rfl

/-- Numbers on both sides of the writable ones, the capacity itself, and a length above every capacity. -/
theorem witness_SetrWritesOrRefuses :
    (∀ r ∈ [1#8, 5#8, 8#8, 13#8, 255#8], r ∉ [0#8, 2#8, 3#8, 4#8]) ∧ NMAX < (0xFFFFFFFF#32).toNat ∧
      (word NMAX).toNat ≤ NMAX ∧ (0#32).toNat ≤ NMAX := by
  have h := NMAX_le
  refine ⟨by decide, ?_, ?_, by simp⟩
  · show NMAX < 4294967295
    omega
  · rw [word_toNat_of_lt (by omega)]

theorem witness_GetrReadsOrRefuses :
    ∀ r ∈ [5#8, 7#8, 14#8, 255#8], 5 ≤ r.toNat ∧ r.toNat ≤ 7 ∨ 14 ≤ r.toNat := by decide

theorem witness_PutbAppendsOrOverflows :
    (∃ s : State, s.ibuf.length = NMAX + 4) ∧ ∃ s : State, s.ibuf.length ≠ NMAX + 4 :=
  ⟨⟨{ State.reset with ibuf := List.replicate (NMAX + 4) 0 }, by simp⟩, ⟨State.reset, by simp⟩⟩

theorem witness_GetbReadsInOrderOrUnderflows :
    (∃ s : State, s.orp.toNat = s.obuf.length) ∧ ∃ s : State, s.orp.toNat < s.obuf.length :=
  ⟨⟨{ State.reset with obuf := [1], orp := 1 }, by decide⟩, ⟨{ State.reset with obuf := [1] }, by decide⟩⟩

theorem witness_BlockCheckRaisesLengthThenEmpty :
    (∃ s : State, s.ibuf.length ≠ s.n.toNat) ∧ (∃ s : State, s.ibuf.length = s.n.toNat ∧ s.n = 0) ∧
      ∃ s : State, Inv s ∧ s.ibuf.length = s.n.toNat ∧ s.n ≠ 0 :=
  ⟨⟨loadedPair 3 [], by decide⟩, ⟨State.reset, by decide⟩, ⟨oneByte true, oneByte_inv true, by decide⟩⟩

/-- A loaded block, for the statements about `SRK.SORT`, `BWT.FWD` and the round trip. -/
theorem witness_SrkSortLeavesASuffixOrder :
    (loaded ba 0 0 0).ibuf.length = (loaded ba 0 0 0).n.toNat ∧ (loaded ba 0 0 0).n ≠ 0 := by decide

theorem witness_PartitionSplitsItsRange : (⟨0, 1, 0⟩ : Range).lo < 1 ∧ 1 < ([0, 1] : List Nat).length := by decide

/-- A stale order, an index at the end of the block, and the last index inside it. -/
theorem witness_SrkRdordReadsTheOrder :
    (∃ s : State, Inv s ∧ s.ordv = false) ∧ (∃ s : State, Inv s ∧ s.ordv = true ∧ s.n ≤ 1) ∧
      ∃ s : State, Inv s ∧ s.ordv = true ∧ 0 < s.n :=
  ⟨⟨oneByte false, oneByte_inv false, rfl⟩, ⟨oneByte true, oneByte_inv true, by decide⟩,
    ⟨oneByte true, oneByte_inv true, by decide⟩⟩

/-- The comparator's clauses where they meet: `A` and `B` at `N` and at `N - 1`, `D` at `N` and at `N - 1`. -/
theorem witness_comparator_clauses :
    (∃ s : State, s.ibuf.length = s.n.toNat ∧ s.n ≠ 0 ∧ s.n ≤ s.a) ∧
    (∃ s : State, s.ibuf.length = s.n.toNat ∧ s.n ≠ 0 ∧ s.n ≤ s.b) ∧
    (∃ s : State, s.ibuf.length = s.n.toNat ∧ s.n ≠ 0 ∧ s.a < s.n ∧ s.b < s.n ∧ s.n ≤ s.d) ∧
    ∃ s : State, s.ibuf.length = s.n.toNat ∧ s.n ≠ 0 ∧ s.a < s.n ∧ s.b < s.n ∧ s.d < s.n :=
  ⟨⟨loaded ba 2 0 0, by decide⟩, ⟨loaded ba 0 2 0, by decide⟩, ⟨loaded ba 1 1 2, by decide⟩,
    ⟨loaded ba 1 1 1, by decide⟩⟩

/-- The three answers of `SRK.CMPR` all occur. -/
theorem witness_SrkCmprComparesTheRotations :
    present1 State.responses 0x2400000000000000 (loaded ba 1 0 0) = some [0xFFFFFFFF] ∧
    present1 State.responses 0x2400000000000000 (loaded ba 0 1 0) = some [1] ∧
    present1 State.responses 0x2400000000000000 (loaded ba 1 1 0) = some [0] := by decide

theorem witness_AdjacentRotationsCompareInOrder :
    present1 State.ord 0x2000000000000000 (loaded ba 0 0 0) = some [1, 0] ∧
    present1 State.ord 0x3000000000000000 (loaded ba 0 0 0) = some [1, 0] := by decide

theorem witness_NonPeriodicBlocksHaveOneSuffixOrder :
    ∃ (b : List Byte) (order : List Nat), b ≠ [] ∧ ¬ Periodic b ∧ IsSuffixOrder b order :=
  ⟨ba, [1, 0], by decide, ba_not_periodic, ba_suffixOrder⟩

theorem witness_LastColumnRearrangesTheBlock :
    ∃ s u : State, u.n = s.n ∧ u.ibuf = s.ibuf ∧ u ≠ s ∧ s.ibuf.length = s.n.toNat ∧ s.n ≠ 0 :=
  ⟨loaded ba 0 0 0, loaded ba 1 0 0, rfl, rfl, fun h => absurd (congrArg State.a h) (by decide), by decide⟩

/-- The three checks of `INVCHK`, the index at `N`. -/
theorem witness_BwtInvChecksItsInput :
    (∃ s : State, s.ibuf.length ≠ s.n.toNat + 4) ∧ (∃ s : State, s.ibuf.length = s.n.toNat + 4 ∧ s.n = 0) ∧
    (loadedPair 2 [0, 0, 0, 2, 0x41, 0x42]).ibuf.length = (loadedPair 2 []).n.toNat + 4 ∧
      (loadedPair 2 []).n.toNat ≤ 0 * 2 ^ 24 + 0 * 2 ^ 16 + 0 * 2 ^ 8 + 2 :=
  ⟨⟨State.reset, by decide⟩, ⟨loadedPair 0 [0, 0, 0, 0], by decide⟩, by decide⟩

/-- The index at `N - 1`. -/
theorem witness_BwtInvWalksTheNextPermutation :
    (loadedPair 2 [0, 0, 0, 1, 0x41, 0x42]).ibuf = 0 :: 0 :: 0 :: 1 :: [0x41, 0x42] ∧
      ([0x41#8, 0x42#8]).length = (loadedPair 2 []).n.toNat ∧
      1 = (0#8).toNat * 2 ^ 24 + (0#8).toNat * 2 ^ 16 + (0#8).toNat * 2 ^ 8 + (1#8).toNat ∧
      1 < (loadedPair 2 []).n.toNat := by decide

set_option maxRecDepth 20000 in
theorem witness_NextPermutationLinksOccurrences :
    (inverseArrays [0x41, 0x41]).scol[0]? = (inverseArrays [0x41, 0x41]).scol[1]? ∧
      (inverseArrays [0x41, 0x41]).nxt[0]? = some 0 ∧ (inverseArrays [0x41, 0x41]).nxt[1]? = some 1 := by decide

theorem witness_InverseRecoversTheBlock :
    ∃ s t u : State, s.ibuf.length = s.n.toNat ∧ s.n ≠ 0 ∧ exec .bwtFwd s = .next t ∧ u.n = s.n ∧ u.ibuf = t.obuf :=
  ⟨loaded ba 0 0 0, _, { State.reset with n := 2, ibuf := [0, 0, 0, 1, 0x42, 0x41] }, by decide, by decide, rfl, by decide,
    by decide⟩

theorem witness_table_premise : IsByteTable State.reset.mtft ∧ IsByteTable (oneByte true).mtft :=
  ⟨List.Perm.refl _, List.Perm.refl _⟩

theorem witness_MtfUnitSharesNoState :
    (∃ s t : State, IsMtf .mtfInit = true ∧ exec .mtfInit s = .next t) ∧
      ∃ s t : State, IsMtf .clr = false ∧ Instr.clr ≠ .reset ∧ exec .clr s = .next t :=
  ⟨⟨State.reset, _, rfl, rfl⟩, ⟨State.reset, _, rfl, by decide, rfl⟩⟩

/-- A command that ends in an error. -/
theorem witness_ErrorsChangeOnlyTheErrorRecord :
    ∃ (s t : State) (r : Word64), s.inputs = [.command 0x1100000000000000] ∧ step s = .next t ∧
      t.responses = s.responses ++ [r] ∧ errBit r = true :=
  ⟨present 0x1100000000000000 State.reset, _, 0x8000001500000000, rfl, rfl, by decide, by decide⟩

/-- A command that clears the record and one that keeps it, both successful. -/
theorem witness_StickyErrorFollowsItsRule :
    (decode 0x0300000000000000 = .ok .clrerr ∧ present1 State.responses 0x0300000000000000 (oneByte true) = some [0]) ∧
    present1 (fun t => (t.responses, t.estk)) 0x0 { oneByte true with estk := true } = some ([0], true) :=
  ⟨⟨by rfl, by decide⟩, by decide⟩

theorem witness_OrderValidFlagFollowsItsRule : ∃ s : State, Inv s ∧ s.ordv = true := ⟨oneByte true, oneByte_inv true, rfl⟩

/-- Each register and space is changed by one of its writers. -/
theorem witness_writers :
    present1 State.n 0x0800000000000000 (oneByte true) = some 0 ∧
    present1 State.fri 0x3000000000000000 (loaded ba 0 0 0) = some 1 ∧
    present1 State.a 0x0802000000000003 (oneByte true) = some 3 ∧
    present1 State.b 0x0803000000000003 (oneByte true) = some 3 ∧
    present1 State.d 0x0804000000000004 (oneByte true) = some 4 ∧
    present1 State.orp 0x1100000000000000 { oneByte true with obuf := [1] } = some 1 ∧
    present1 State.ibuf 0x0200000000000000 (oneByte true) = some [] ∧
    present1 State.ord 0x0100000000000000 (oneByte true) = some [] := by decide

/-- Each of the three changes succeeds on a valid order; a stale order; and the step that rebuilds it. -/
theorem witness_ChangedInputMakesTheOrderStale :
    (present1 State.responses 0x1000000000000041 (oneByte true) = some [0] ∧
      present1 State.responses 0x0800000000000000 (oneByte true) = some [0] ∧
      present1 State.responses 0x0200000000000000 (oneByte true) = some [0]) ∧
    (oneByte false).ordv = false ∧ present1 State.ordv 0x2000000000000000 (oneByte false) = some true := by decide

theorem witness_EveryStepKeepsTheStateInvariant : ∃ s t : State, Inv s ∧ step s = .next t :=
  ⟨oneByte true, oneByte true, oneByte_inv true, rfl⟩

end Sys2Proof.Tests
end

section
/-! PROOFS, 00_scope.md. `GETR` of any register, and the capacity. -/

namespace Sys2Proof.Machine

open Sys2Proof

/-- R125: `GETR` of a register that has a number answers with that register's value, in every state. -/
theorem exec_getr_number (r : Reg) (s : State) :
    exec (.getr r.number) s = .next (afterOk s (readReg r s)) := by
  simp only [exec, execGetr, regOf_number, succeed_eq_afterOk]

/-- R6: the capacity fits in a register, so `CAP` holds it whole. -/
theorem word_NMAX_toNat : (word NMAX).toNat = NMAX :=
  word_toNat_of_lt (Nat.lt_of_le_of_lt NMAX_le (by decide))

/-- Settles O13, from the bounds of the capacity and the reading rule of `GETR` at register 13, `CAP`. -/
theorem capacityIsInRangeAndReadable : Obligations.CapacityIsInRangeAndReadable :=
  ⟨one_le_NMAX, NMAX_le, word_NMAX_toNat, exec_getr_number .cap⟩

end Sys2Proof.Machine
end

section
/-! PROOFS, 10_state.md, the sort and the table. The array of the sort stays a rearrangement of the rotation numbers and
its pending ranges stay inside it, so the suffix order holds every rotation; a front move rearranges the table. -/

namespace Sys2Proof.Machine

open Sys2Proof

/-! ## The sort rearranges the rotation numbers -/

/-- R155: an exchange of two entries of the array rearranges it. -/
theorem swapAt_perm {l : List Nat} {i j : Nat} (hi : i < l.length) (hj : j < l.length) : (swapAt l i j).Perm l := by
  simpa [swapAt, hi, hj] using List.set_set_perm hi hj

/-- R155: the loop of `PARTITION` rearranges the array and moves the ends of the `=` range inwards only. It keeps
`lt < i ≤ gt + 1`, so every exchange lies inside the array and the `=` range is never empty. -/
theorem partitionLoop_perm_and_ends {b : List Byte} {d : Nat} {v : Int} {turns : Nat} {ord : List Nat} {lt gt i : Nat}
    (hlt : lt < i) (hi : i ≤ gt + 1) (hgt : gt < ord.length) :
    (partitionLoop b d v turns ord lt gt i).ord.Perm ord ∧
      lt ≤ (partitionLoop b d v turns ord lt gt i).lt ∧
      (partitionLoop b d v turns ord lt gt i).lt ≤ (partitionLoop b d v turns ord lt gt i).gt ∧
      (partitionLoop b d v turns ord lt gt i).gt ≤ gt := by
  induction turns generalizing ord lt gt i with
  | zero => exact ⟨.refl _, Nat.le_refl _, show lt ≤ gt by omega, Nat.le_refl _⟩
  | succ turns ih =>
    unfold partitionLoop
    split
    · next hle =>
      split
      · have hswap : (swapAt ord lt i).Perm ord := swapAt_perm (by omega) (by omega)
        obtain ⟨hp, hl, hm, hg⟩ := ih (ord := swapAt ord lt i) (lt := lt + 1) (gt := gt) (i := i + 1)
          (by omega) (by omega) (by rw [hswap.length_eq]; exact hgt)
        exact ⟨hp.trans hswap, by omega, hm, hg⟩
      · split
        · have hswap : (swapAt ord i gt).Perm ord := swapAt_perm (by omega) hgt
          obtain ⟨hp, hl, hm, hg⟩ := ih (ord := swapAt ord i gt) (lt := lt) (gt := gt - 1) (i := i)
            hlt (by omega) (by rw [hswap.length_eq]; omega)
          exact ⟨hp.trans hswap, hl, hm, by omega⟩
        · exact ih (by omega) (by omega) hgt
    · exact ⟨.refl _, Nat.le_refl _, show lt ≤ gt by omega, Nat.le_refl _⟩

/-- R155: `PARTITION` of a range inside the array rearranges the array and leaves the `=` range inside that range. -/
theorem partition_perm_and_ends (b : List Byte) {ord : List Nat} {r : Range} (hr : r.lo < r.hi) (hhi : r.hi < ord.length) :
    (partition b ord r).ord.Perm ord ∧ r.lo ≤ (partition b ord r).lt ∧
      (partition b ord r).lt ≤ (partition b ord r).gt ∧ (partition b ord r).gt ≤ r.hi :=
  partitionLoop_perm_and_ends (Nat.lt_succ_self _) (by omega) hhi

/-- What the sort keeps between two partitions: the array holds every rotation number once, and each pending range has
two entries at least and lies inside the array (R154, R156). -/
structure SortState.Sound (b : List Byte) (q : SortState) : Prop where
  rotations : q.ord.Perm (List.range b.length)
  ranges : ∀ r ∈ q.stack, r.lo < r.hi ∧ r.hi < b.length

theorem sortInit_sound (b : List Byte) : (sortInit b).Sound b where
  rotations := .refl _
  ranges r hr := by
    by_cases h : 2 ≤ b.length
    · obtain rfl : r = ⟨0, b.length - 1, 0⟩ := by simpa [sortInit, h] using hr
      exact ⟨show 0 < b.length - 1 by omega, show b.length - 1 < b.length by omega⟩
    · simp [sortInit, h] at hr

/-- R156: what `PARTITION` pushes lies inside the partitioned range and has two entries at least. -/
theorem mem_pushes_bounds {v : Int} {p : Split} {r q : Range} (hlt : p.lt ≤ p.gt) (hgt : p.gt ≤ r.hi)
    (hq : q ∈ pushes v p r) : q.lo < q.hi ∧ q.hi ≤ r.hi := by
  simp only [pushes, List.mem_append, List.mem_ite_nil_right, List.mem_singleton] at hq
  rcases hq with ⟨h, rfl⟩ | ⟨⟨-, h⟩, rfl⟩ | ⟨h, rfl⟩ <;> dsimp only <;> omega

theorem sortTurn_sound {b : List Byte} {q : SortState} (h : q.Sound b) : (sortTurn b q).Sound b := by
  unfold sortTurn
  split
  · exact h
  · next r rest hstack =>
    obtain ⟨hr, hhi⟩ := h.ranges r (by simp [hstack])
    have hlen : q.ord.length = b.length := by simpa using h.rotations.length_eq
    obtain ⟨hperm, -, hm, hg⟩ := partition_perm_and_ends b hr (hlen ▸ hhi)
    refine ⟨hperm.trans h.rotations, fun p hp => ?_⟩
    rcases List.mem_append.mp hp with hp | hp
    · obtain ⟨hp1, hp2⟩ := mem_pushes_bounds hm hg hp
      exact ⟨hp1, Nat.lt_of_le_of_lt hp2 hhi⟩
    · exact h.ranges p (by simp [hstack, hp])

theorem sortRun_sound {b : List Byte} (turns : Nat) {q : SortState} (h : q.Sound b) : (sortRun b turns q).Sound b := by
  induction turns generalizing q with
  | zero => exact h
  | succ turns ih =>
    unfold sortRun
    split
    · exact h
    · exact ih (sortTurn_sound h)

/-- R150: whatever the block, the suffix order holds every rotation number once. -/
theorem suffixOrder_perm_range (b : List Byte) : (suffixOrder b).Perm (List.range b.length) :=
  (sortRun_sound _ (sortInit_sound b)).rotations

theorem suffixOrder_length (b : List Byte) : (suffixOrder b).length = b.length := by
  simpa using (suffixOrder_perm_range b).length_eq

/-- R181: rotation 0 stands in the suffix order of every block, so the index lies inside the block. -/
theorem firstRowIndex_suffixOrder_lt {b : List Byte} (hb : 0 < b.length) : firstRowIndex (suffixOrder b) < b.length := by
  have h0 : 0 ∈ suffixOrder b := (suffixOrder_perm_range b).mem_iff.mpr (List.mem_range.mpr hb)
  calc firstRowIndex (suffixOrder b) < (suffixOrder b).length := List.idxOf_lt_length_iff.mpr h0
    _ = b.length := suffixOrder_length b

/-! ## The lengths of the two outputs -/

/-- R182: the pair is the index in four bytes and one byte of the last column for each entry of the order. -/
theorem serialise_lastColumn_length (fri : Word) (b : List Byte) (order : List Nat) :
    (serialise fri (lastColumn b order)).length = order.length + 4 := by
  simp [serialise, be32, lastColumn]

theorem walk_length (scol : List Byte) (nxt : List Nat) (steps cur : Nat) : (walk scol nxt steps cur).length = steps := by
  induction steps generalizing cur with
  | zero => rfl
  | succ steps ih => simp [walk, ih]

/-- R186: the inverse writes as many bytes as the last column has. -/
theorem inverseTransform_length (f : Nat) (L : List Byte) : (inverseTransform f L).length = L.length := walk_length ..

/-! ## A front move rearranges the table -/

/-- R213, entry by entry. -/
theorem getElem_frontMove (t : Vector Byte 256) (i : Fin 256) {j : Nat} (hj : j < 256) :
    (frontMove t i)[j] = if j = 0 then t[i.val] else if j ≤ i.val then t[j - 1] else t[j] :=
  Vector.getElem_ofFn ..

/-- R213: the entry comes first, then the entries before it in their order, then the rest. -/
theorem frontMove_toList (t : Vector Byte 256) (i : Fin 256) :
    (frontMove t i).toList = t[i.val] :: (t.toList.take i.val ++ t.toList.drop (i.val + 1)) := by
  have hi := i.isLt
  apply List.ext_getElem
  · simp
    omega
  · intro j hj _
    rw [Vector.length_toList] at hj
    rw [Vector.getElem_toList, getElem_frontMove t i hj]
    rcases j with _ | j
    · simp
    · by_cases hle : j < i.val
      · rw [List.getElem_cons_succ, List.getElem_append_left (by simp; omega)]
        simp [Nat.succ_le_of_lt hle]
      · rw [List.getElem_cons_succ, List.getElem_append_right (by simp; omega)]
        simp [show ¬ j + 1 ≤ i.val by omega, show i.val + 1 + (j - i.val) = j + 1 by omega]

theorem frontMove_perm (t : Vector Byte 256) (i : Fin 256) : (frontMove t i).toList.Perm t.toList := by
  have h : i.val < t.toList.length := by simp
  rw [frontMove_toList, ← List.eraseIdx_eq_take_drop_succ]
  exact List.getElem_cons_eraseIdx_perm h

end Sys2Proof.Machine
end

section
/-! PROOFS, 10_state.md, the invariant. What a command that succeeds can leave, one case for each way of writing the
state; the invariant is kept by each of them and by the endings of a transaction. -/

namespace Sys2Proof.Machine

open Sys2Proof

/-! ## The ways a command changes the state -/

/-- The commands that write no state of the block when they succeed. -/
def OnlyReads : Instr → Bool
  | .nop | .getr _ | .srkRdord _ | .srkChr | .srkCmp | .srkCmpr => true
  | .reset | .clr | .clrerr | .setr _ _ | .putb _ | .getb | .srkSort | .bwtFwd | .bwtInv | .mtfInit | .mtfEnc _
  | .mtfDec _ => false

/-- The state a command that succeeds from `s` leaves before its response, without the value it returns: one
constructor for each way of writing the state, with what the command has checked first. -/
inductive Change (s : State) : Instr → State → Prop
  | read {i : Instr} (hi : OnlyReads i = true) : Change s i s
  | reset : Change s .reset (resetBlock s)
  | clr : Change s .clr (clearOrdv (emptyBuffers s))
  | clrerr : Change s .clrerr (clearError s)
  | setN (x : Word) (hx : x.toNat ≤ NMAX) : Change s (.setr 0 x) (clearOrdv { s with n := x })
  | setA (x : Word) : Change s (.setr 2 x) { s with a := x }
  | setB (x : Word) : Change s (.setr 3 x) { s with b := x }
  | setD (x : Word) : Change s (.setr 4 x) { s with d := x }
  | putb (x : Byte) (hroom : s.ibuf.length ≠ NMAX + 4) : Change s (.putb x) (clearOrdv (ibufAppend x s))
  | getb (x : Byte) (hx : obufNext s = some x) : Change s .getb (advanceOrp s)
  | sort (hblk : blkchk s = none) : Change s .srkSort (sortBlock s)
  | bwtFwd (hblk : blkchk s = none) (fri : Word) (hfri : fri = word (firstRowIndex (suffixOrder (blk s)))) :
    Change s .bwtFwd
      (setOutput (serialise fri (lastColumn (blk s) (suffixOrder (blk s)))) { sortBlock s with fri := fri })
  | bwtInv (f : Word) (hinv : invchk s = .ok f) :
    Change s .bwtInv (setOutput (inverseTransform f.toNat (lcol s)) { s with fri := f })
  | mtfInit : Change s .mtfInit { s with mtft := identityTable }
  | mtfEnc (x : Byte) : Change s (.mtfEnc x) { s with mtft := frontMove s.mtft (tableFind s.mtft x) }
  | mtfDec (k : Byte) : Change s (.mtfDec k) { s with mtft := frontMove s.mtft (tableIndex k) }

/-- A number that names a register is that register's own (10_state.md R20). -/
theorem number_of_regOf {reg : Byte} {r : Reg} (h : regOf reg = some r) : reg = r.number := by
  obtain ⟨hnone, -⟩ | ⟨q, hq, hreg⟩ := regOf_cases reg
  · simp [hnone] at h
  · obtain rfl : q = r := by simpa [hq] using h
    exact hreg

/-- R124: the four registers `SETR` writes. -/
theorem change_of_writeReg {s : State} {reg : Byte} {r : Reg} {x : Word} (hr : regOf reg = some r)
    (hw : r.writable = true) (hx : r = .n → x.toNat ≤ NMAX) : Change s (.setr reg x) (writeReg r x s) := by
  obtain rfl := number_of_regOf hr
  cases r with
  | n => exact .setN x (hx rfl)
  | a => exact .setA x
  | b => exact .setB x
  | d => exact .setD x
  | fri | status | ecause | ilen | olen | orp | cap => cases hw

/-- The effect of a command is one of the ways of writing the state. -/
theorem change_of_effect {i : Instr} {s u : State} {v : Word} (h : Effect i s v u) : Change s i u := by
  cases i with
  | nop => obtain ⟨-, rfl⟩ := h; exact .read rfl
  | reset => obtain ⟨-, rfl⟩ := h; exact .reset
  | clr => obtain ⟨-, rfl⟩ := h; exact .clr
  | clrerr => obtain ⟨-, rfl⟩ := h; exact .clrerr
  | setr reg x => obtain ⟨r, hr, hw, hx, -, rfl⟩ := h; exact change_of_writeReg hr hw hx
  | getr reg => obtain ⟨-, -, -, rfl⟩ := h; exact .read rfl
  | putb x => obtain ⟨hroom, -, rfl⟩ := h; exact .putb x hroom
  | getb => obtain ⟨x, hx, -, rfl⟩ := h; exact .getb x hx
  | srkSort => obtain ⟨hblk, -, rfl⟩ := h; exact .sort hblk
  | srkRdord k => obtain ⟨-, rfl⟩ := h; exact .read rfl
  | srkChr | srkCmp | srkCmpr => obtain ⟨-, -, rfl⟩ := h; exact .read rfl
  | bwtFwd => obtain ⟨hblk, -, fri, hfri, rfl⟩ := h; exact .bwtFwd hblk fri hfri
  | bwtInv => obtain ⟨f, hinv, -, rfl⟩ := h; exact .bwtInv f hinv
  | mtfInit => obtain ⟨-, rfl⟩ := h; exact .mtfInit
  | mtfEnc x => obtain ⟨-, rfl, -, rfl⟩ := h; exact .mtfEnc x
  | mtfDec k => obtain ⟨-, rfl, -, rfl⟩ := h; exact .mtfDec k

/-- Everything a command can do: raise an error, or change the state in its way and answer a value. -/
theorem exec_change_cases {i : Instr} {s t : State} (h : exec i s = .next t) :
    (∃ c, t = raise (opcode i) c s) ∨ ∃ v u, Change s i u ∧ t = succeed v u := by
  rcases exec_next_cases h with ⟨c, -, ht⟩ | ⟨v, u, hu, ht⟩
  · exact .inl ⟨c, ht⟩
  · exact .inr ⟨v, u, change_of_effect hu, ht⟩

/-! ## The invariant -/

/-- R31: the low byte of the error record is the cause. -/
theorem ecauseOf_cause (op cause : Byte) : (ecauseOf op cause).extractLsb' 0 8 = cause := by
  apply BitVec.eq_of_getLsbD_eq
  intro i hi
  simp only [ecauseOf, BitVec.getLsbD_extractLsb', BitVec.getLsbD_append]
  simp [hi]

/-- R47: at reset every length is 0, no order is valid, the table is the identity and no error is recorded. -/
theorem reset_inv : Inv State.reset where
  declared := Nat.zero_le _
  firstRow := one_le_NMAX
  buffers := reset_wf
  order := by simp
  table := .refl _
  noError := fun _ => rfl
  someError := by simp

namespace Inv

variable {s : State}

/-- The invariant speaks of the block alone: what is still presented and what was answered do not matter to it. -/
theorem with_host (h : Inv s) (l : List HostEvent) (r : List Word64) : Inv { s with inputs := l, responses := r } :=
  ⟨h.declared, h.firstRow, h.buffers, h.order, h.table, h.noError, h.someError⟩

theorem resetBlock (s : State) : Inv (resetBlock s) := reset_inv.with_host s.inputs s.responses

theorem succeed (h : Inv s) (v : Word) : Inv (succeed v s) := h.with_host s.inputs (s.responses ++ [rspOk v])

/-- An error records a cause of the spec and changes nothing else (R31). -/
theorem raise (h : Inv s) (op : Byte) (c : Cause) : Inv (raise op c s) :=
  ⟨h.declared, h.firstRow, h.buffers, h.order, h.table, by simp, fun _ => ⟨c, ecauseOf_cause op c.code⟩⟩

theorem clearError (h : Inv s) : Inv (clearError s) :=
  ⟨h.declared, h.firstRow, h.buffers, h.order, h.table, fun _ => rfl, by simp⟩

/-- The comparator operands are free (R23 to R25). -/
theorem with_operands (h : Inv s) (a b d : Word) : Inv { s with a := a, b := b, d := d } :=
  ⟨h.declared, h.firstRow, h.buffers, h.order, h.table, h.noError, h.someError⟩

theorem clearOrdv (h : Inv s) : Inv (clearOrdv s) :=
  ⟨h.declared, h.firstRow, h.buffers, by simp, h.table, h.noError, h.someError⟩

/-- While no order is valid the declared length may change (R21, R27). -/
theorem with_n (h : Inv s) (hstale : s.ordv = false) {x : Word} (hx : x.toNat ≤ NMAX) : Inv { s with n := x } :=
  ⟨hx, h.firstRow, h.buffers, by simp [hstale], h.table, h.noError, h.someError⟩

/-- While no order is valid the input may grow (R27, R37). -/
theorem ibufAppend (h : Inv s) (hstale : s.ordv = false) (x : Byte) (hroom : s.ibuf.length ≠ NMAX + 4) :
    Inv (ibufAppend x s) :=
  ⟨h.declared, h.firstRow, ibufAppend_wf x h.buffers hroom, by simp [hstale], h.table, h.noError, h.someError⟩

/-- While no order is valid the buffers may be emptied (R27, R122). -/
theorem emptyBuffers (h : Inv s) (hstale : s.ordv = false) : Inv (emptyBuffers s) :=
  ⟨h.declared, h.firstRow, emptyBuffers_wf s, by simp [hstale], h.table, h.noError, h.someError⟩

theorem advanceOrp (h : Inv s) {x : Byte} (hx : obufNext s = some x) : Inv (advanceOrp s) :=
  ⟨h.declared, h.firstRow, advanceOrp_wf h.buffers hx, h.order, h.table, h.noError, h.someError⟩

/-- The sort stores the order of the block it was handed (R27, R39). -/
theorem sortBlock (h : Inv s) (hlen : s.ibuf.length = s.n.toNat) (hpos : 1 ≤ s.n.toNat) : Inv (sortBlock s) :=
  ⟨h.declared, h.firstRow, h.buffers, fun _ => ⟨hpos, hlen, rfl⟩, h.table, h.noError, h.someError⟩

/-- New output and its row index keep the invariant when both fit the capacity (R22, R33, R34). -/
theorem setOutput (h : Inv s) {fri : Word} {bytes : List Byte} (hfri : fri.toNat < NMAX)
    (hbytes : bytes.length ≤ NMAX + 4) : Inv (setOutput bytes { s with fri := fri }) :=
  ⟨h.declared, hfri, setOutput_wf h.buffers hbytes, h.order, h.table, h.noError, h.someError⟩

theorem with_table (h : Inv s) {T : Vector Byte 256} (hT : IsByteTable T) : Inv { s with mtft := T } :=
  ⟨h.declared, h.firstRow, h.buffers, h.order, hT, h.noError, h.someError⟩

end Inv

/-- A front move of a byte table is a byte table (R216). -/
theorem frontMove_isByteTable {t : Vector Byte 256} (ht : IsByteTable t) (i : Fin 256) : IsByteTable (frontMove t i) :=
  (frontMove_perm t i).trans ht

/-- What `BLKCHK` passes is a block of `N` bytes, one at least (R152). -/
theorem blkchk_block_length {s : State} (hblk : blkchk s = none) :
    s.ibuf.length = s.n.toNat ∧ (blk s).length = s.n.toNat ∧ 1 ≤ s.n.toNat := by
  obtain ⟨hlen, hn⟩ := blkchk_eq_none.mp hblk
  exact ⟨hlen, by rw [blk_eq_ibuf hlen, hlen], Nat.one_le_iff_ne_zero.mpr fun h0 => hn (BitVec.eq_of_toNat_eq h0)⟩

/-- The forward transform answers a row index of the block, and the pair fits the output (R22, R182). -/
theorem bwtFwd_inv {s : State} (h : Inv s) (hblk : blkchk s = none) {fri : Word}
    (hfri : fri = word (firstRowIndex (suffixOrder (blk s)))) :
    Inv (setOutput (serialise fri (lastColumn (blk s) (suffixOrder (blk s)))) { sortBlock s with fri := fri }) := by
  obtain ⟨hlen, hblen, hpos⟩ := blkchk_block_length hblk
  have hcap : s.n.toNat ≤ NMAX := h.declared
  have hrow : firstRowIndex (suffixOrder (blk s)) < s.n.toNat := hblen ▸ firstRowIndex_suffixOrder_lt (by omega)
  refine (h.sortBlock hlen hpos).setOutput ?_ ?_
  · rw [hfri, word_toNat_of_lt (by have := NMAX_le; omega)]
    omega
  · rw [serialise_lastColumn_length, suffixOrder_length]
    omega

/-- The inverse reads a row index of the block, and the block it rebuilds fits the output (R22, R185, R186). -/
theorem bwtInv_inv {s : State} (h : Inv s) {f : Word} (hinv : invchk s = .ok f) :
    Inv (setOutput (inverseTransform f.toNat (lcol s)) { s with fri := f }) := by
  obtain ⟨-, -, hlt, rfl⟩ := invchk_eq_ok.mp hinv
  have hcap : s.n.toNat ≤ NMAX := h.declared
  refine h.setOutput (Nat.lt_of_lt_of_le hlt hcap) ?_
  have hlcol : (lcol s).length ≤ s.n.toNat := List.length_take_le ..
  rw [inverseTransform_length]
  omega

/-- Each way a command changes the state keeps the invariant. -/
theorem change_keeps_inv {i : Instr} {s u : State} (hc : Change s i u) (h : Inv s) : Inv u := by
  cases hc with
  | read => exact h
  | reset => exact .resetBlock s
  | clr => exact h.clearOrdv.emptyBuffers rfl
  | clrerr => exact h.clearError
  | setN x hx => exact h.clearOrdv.with_n rfl hx
  | setA x => exact h.with_operands x s.b s.d
  | setB x => exact h.with_operands s.a x s.d
  | setD x => exact h.with_operands s.a s.b x
  | putb x hroom => exact h.clearOrdv.ibufAppend rfl x hroom
  | getb x hx => exact h.advanceOrp hx
  | sort hblk =>
    obtain ⟨hlen, -, hpos⟩ := blkchk_block_length hblk
    exact h.sortBlock hlen hpos
  | bwtFwd hblk fri hfri => exact bwtFwd_inv h hblk hfri
  | bwtInv f hinv => exact bwtInv_inv h hinv
  | mtfInit => exact h.with_table (.refl _)
  | mtfEnc x => exact h.with_table (frontMove_isByteTable h.table _)
  | mtfDec k => exact h.with_table (frontMove_isByteTable h.table _)

theorem transact_keeps_inv {cmd : Word64} {s t : State} (h : Inv s) (hx : transact cmd s = .next t) : Inv t := by
  unfold transact at hx
  split at hx
  · rcases exec_change_cases hx with ⟨c, rfl⟩ | ⟨v, u, hc, rfl⟩
    · exact h.raise _ c
    · exact (change_keeps_inv hc h).succeed v
  · cases hx
    exact h.raise _ _

/-- Settles O59: a waiting step changes nothing, a reset event leaves the reset values, and a command raises an error or
changes the state in one of its ways. -/
theorem everyStepKeepsTheStateInvariant : Obligations.EveryStepKeepsTheStateInvariant := by
  intro s t h hstep
  unfold step at hstep
  split at hstep
  · cases hstep
    exact h
  · next e rest _ =>
    have hrest : Inv { s with inputs := rest } := h.with_host rest s.responses
    cases e with
    | command cmd => exact transact_keeps_inv hrest hstep
    | reset | resetDuring => cases hstep; exact .resetBlock _

/-- Settles O60. -/
theorem resetMeetsTheStateInvariant : Obligations.ResetMeetsTheStateInvariant := reset_inv

end Sys2Proof.Machine
end

section
/-! PROOFS, 10_state.md, flags and writers. `ESTK`, `ORDV`, the registers and the spaces, each from the ways a command
changes the state; the reset values. -/

namespace Sys2Proof.Machine

open Sys2Proof

/-! ## The error record -/

/-- R28, R31: only `CLRERR` and `RESET` touch the error record when they succeed. -/
theorem change_keeps_error_record {i : Instr} {s u : State} (hc : Change s i u) (hclr : i ≠ .clrerr)
    (hreset : i ≠ .reset) : u.estk = s.estk ∧ u.ecause = s.ecause := by
  cases hc with
  | clrerr => exact absurd rfl hclr
  | reset => exact absurd rfl hreset
  | _ => exact ⟨rfl, rfl⟩

/-- R28: `CLRERR` and `RESET` leave no error recorded. -/
theorem change_clears_error_record {i : Instr} {s u : State} (hc : Change s i u) (hi : i = .clrerr ∨ i = .reset) :
    u.estk = false ∧ u.ecause = 0 := by
  rcases hi with rfl | rfl
  · cases hc with
    | read hread => cases hread
    | clrerr => exact ⟨rfl, rfl⟩
  · cases hc with
    | read hread => cases hread
    | reset => exact ⟨rfl, rfl⟩

/-- R28, R31: what one command word does to the error record. -/
theorem step_error_record {s t : State} {w : Word64} {rest : List HostEvent} (hi : s.inputs = .command w :: rest)
    (h : step s = .next t) :
    ∃ r, t.responses = s.responses ++ [r] ∧
      (errBit r = true → t.estk = true) ∧
      (errBit r = false → decode w = .ok .clrerr ∨ decode w = .ok .reset → t.estk = false ∧ t.ecause = 0) ∧
      (errBit r = false → decode w ≠ .ok .clrerr → decode w ≠ .ok .reset → t.estk = s.estk ∧ t.ecause = s.ecause) := by
  rcases step_command_cases hi h with ⟨c, rfl⟩ | ⟨i, v, u, hd, hu, rfl⟩
  · exact ⟨rspErr c.code, by simp [errBit_rspErr]⟩
  · have hclears := change_clears_error_record (change_of_effect hu)
    have hkeeps := change_keeps_error_record (change_of_effect hu)
    obtain ⟨hr, -⟩ := effect_responses_inputs hu
    exact ⟨rspOk v, by simp [hr], by simp [errBit_rspOk],
      fun _ hcleared => hclears (by simpa [hd] using hcleared),
      fun _ hclr hreset => hkeeps (by simpa [hd] using hclr) (by simpa [hd] using hreset)⟩

section estkUnread
variable (s : State) (e : Bool)

theorem blkchk_with_estk : blkchk { s with estk := e } = blkchk s := rfl
theorem chrCheck_with_estk : chrCheck { s with estk := e } = chrCheck s := rfl
theorem cmpCheck_with_estk : cmpCheck { s with estk := e } = cmpCheck s := rfl
theorem invchk_with_estk : invchk { s with estk := e } = invchk s := rfl
theorem ordRead_with_estk (k : Word) : ordRead k { s with estk := e } = ordRead k s := rfl
theorem obufNext_with_estk : obufNext { s with estk := e } = obufNext s := rfl

/-- R28, R30: only `STATUS` shows `ESTK`. -/
theorem readReg_with_estk {r : Reg} (hr : r ≠ .status) : readReg r { s with estk := e } = readReg r s := by
  cases r with
  | status => exact absurd rfl hr
  | _ => rfl

end estkUnread

theorem writeReg_with_estk (r : Reg) (x : Word) (s : State) (e : Bool) :
    writeReg r x { s with estk := e } = { writeReg r x s with estk := e } := by
  cases r <;> rfl

/-- A register number other than that of `STATUS` names another register or none. -/
theorem regOf_ne_status {reg : Byte} {r : Reg} (hreg : reg ≠ 8) (hr : regOf reg = some r) : r ≠ .status := by
  rintro rfl
  exact hreg (number_of_regOf hr)

/-- R28: no command but a read of `STATUS` decides or answers by `ESTK`: every check it makes is of other state. -/
theorem exec_with_estk {i : Instr} {s t : State} (e : Bool) (hi : i ≠ .getr 8) (h : exec i s = .next t) :
    ∃ v, exec i { s with estk := e } = .next v ∧ { v with estk := t.estk } = t := by
  cases i with
  | nop | reset | clr | clrerr | mtfInit | mtfEnc _ | mtfDec _ => cases h; exact ⟨_, rfl, rfl⟩
  | setr reg x =>
    simp only [exec, execSetr, writeReg_with_estk] at h ⊢
    split at h
    · cases h; exact ⟨_, rfl, rfl⟩
    · next r _ =>
      by_cases hw : r.writable = false
      · simp only [if_pos hw] at h ⊢; cases h; exact ⟨_, rfl, rfl⟩
      · by_cases hv : r = .n ∧ NMAX < x.toNat
        · simp only [if_neg hw, if_pos hv] at h ⊢; cases h; exact ⟨_, rfl, rfl⟩
        · simp only [if_neg hw, if_neg hv] at h ⊢; cases h; exact ⟨_, rfl, rfl⟩
  | getr reg =>
    simp only [exec, execGetr] at h ⊢
    split at h
    · cases h; exact ⟨_, rfl, rfl⟩
    · next r hr =>
      have hne : r ≠ .status := regOf_ne_status (fun h8 => hi (h8 ▸ rfl)) hr
      rw [readReg_with_estk s e hne]
      cases h; exact ⟨_, rfl, rfl⟩
  | putb x =>
    simp only [exec, execPutb] at h ⊢
    by_cases hfull : s.ibuf.length = NMAX + 4
    · simp only [if_pos hfull] at h ⊢; cases h; exact ⟨_, rfl, rfl⟩
    · simp only [if_neg hfull] at h ⊢; cases h; exact ⟨_, rfl, rfl⟩
  | getb | srkSort | srkRdord _ | srkChr | srkCmp | srkCmpr | bwtFwd | bwtInv =>
    simp only [exec, execGetb, execSrkSort, execSrkRdord, execSrkChr, execSrkCmp, execSrkCmpr, execBwtFwd, execBwtInv,
      blkchk_with_estk, chrCheck_with_estk, cmpCheck_with_estk, invchk_with_estk, ordRead_with_estk,
      obufNext_with_estk] at h ⊢
    split at h <;> cases h <;> exact ⟨_, rfl, rfl⟩

/-- Settles O54: the record after each way a command word can end, and the checks, none of which reads `ESTK`. -/
theorem stickyErrorFollowsItsRule : Obligations.StickyErrorFollowsItsRule :=
  ⟨rfl, fun _ _ _ _ => step_error_record, fun _ _ _ e => exec_with_estk e⟩

/-! ## The order flag -/

/-- R27: a command that only reads is none of those that set or clear `ORDV`. -/
theorem ordvAfter_of_onlyReads {i : Instr} (hi : OnlyReads i = true) (old : Bool) : ordvAfter i old = old := by
  cases i with
  | nop | getr _ | srkRdord _ | srkChr | srkCmp | srkCmpr => rfl
  | reset | clr | clrerr | setr _ _ | putb _ | getb | srkSort | bwtFwd | bwtInv | mtfInit | mtfEnc _ | mtfDec _ => cases hi

/-- R27: `ORDV` after each way a command changes the state. -/
theorem change_ordv {i : Instr} {s u : State} (hc : Change s i u) : u.ordv = ordvAfter i s.ordv := by
  cases hc with
  | read hi => exact (ordvAfter_of_onlyReads hi s.ordv).symm
  | _ => rfl

/-- Settles O55: an error changes the error record alone, a success changes `ORDV` by the rule, and the invariant says
what a valid order is of. -/
theorem orderValidFlagFollowsItsRule : Obligations.OrderValidFlagFollowsItsRule := by
  refine ⟨fun i s t h => ?_, rfl, fun s hinv hv => ?_⟩
  · rcases exec_next_cases h with ⟨c, -, rfl⟩ | ⟨v, u, hu, rfl⟩
    · exact ⟨rspErr c.code, by simp [errBit_rspErr]⟩
    · obtain ⟨hr, -⟩ := effect_responses_inputs hu
      exact ⟨rspOk v, by simp [hr, errBit_rspOk, change_ordv (change_of_effect hu)]⟩
  · obtain ⟨hpos, hlen, -⟩ := hinv.order hv
    exact ⟨hlen, hpos⟩

/-! ## The writers of the registers and the spaces -/

/-- Settles O56: an error writes no data register, and each way a command changes the state writes its own. -/
theorem dataRegistersHaveTheirWriters : Obligations.DataRegistersHaveTheirWriters := by
  intro i s t h
  rcases exec_change_cases h with ⟨c, rfl⟩ | ⟨v, u, hc, rfl⟩
  · simp
  · cases hc <;> simp

/-- Settles O57: an error writes no space, and each way a command changes the state writes its own. -/
theorem spacesHaveTheirWriters : Obligations.SpacesHaveTheirWriters := by
  intro i s t h
  rcases exec_change_cases h with ⟨c, rfl⟩ | ⟨v, u, hc, rfl⟩
  · simp
  · cases hc <;> simp

/-! ## The reset values -/

/-- Settles O12: the values of the reset state; an empty output and a stale order refuse every read. -/
theorem resetStateHoldsTheSpecsValues : Obligations.ResetStateHoldsTheSpecsValues := by
  refine ⟨rfl, rfl, rfl, rfl, rfl, rfl, rfl, rfl, rfl, rfl, rfl, rfl, fun v => ?_, ?_, fun k => ?_⟩
  · simp [identityTable]
  · have hempty : obufNext State.reset = none := rfl
    simp only [exec, execGetb, hempty, raise_eq_afterError]
    rfl
  · have hstale : ordRead k State.reset = none := rfl
    simp only [exec, execSrkRdord, hstale, raise_eq_afterError]
    rfl

end Sys2Proof.Machine
end

section
/-! PROOFS, 20_memory.md. The serialised index as a positional number: the value read is the big-endian sum of the four
bytes, and the bytes written are its base-256 digits. -/

namespace Sys2Proof.Machine

open Sys2Proof

/-- A byte appended below a bit vector is one more base-256 digit. -/
theorem toNat_append_byte {w : Nat} (v : BitVec w) (x : Byte) : (v ++ x).toNat = v.toNat * 256 + x.toNat := by
  rw [BitVec.toNat_append, ← Nat.shiftLeft_add_eq_or_of_lt x.isLt, Nat.shiftLeft_eq]

/-- The byte at bit `k` is the base-256 digit there. -/
theorem toNat_extract_byte (v : Word) (k : Nat) : (v.extractLsb' k 8).toNat = v.toNat / 2 ^ k % 256 := by
  rw [BitVec.extractLsb'_toNat, Nat.shiftRight_eq_div_pow]

/-- R62: byte 0 is the most significant of the four read; what follows them is not read. -/
theorem ofBe32_toNat (x y z u : Byte) (rest : List Byte) :
    (ofBe32 (x :: y :: z :: u :: rest)).toNat = x.toNat * 2 ^ 24 + y.toNat * 2 ^ 16 + z.toNat * 2 ^ 8 + u.toNat := by
  have hbytes : ofBe32 (x :: y :: z :: u :: rest) = x ++ y ++ z ++ u := rfl
  rw [hbytes, toNat_append_byte, toNat_append_byte, toNat_append_byte]
  omega

/-- R62: the four digits of an index sum to it. -/
theorem ofBe32_be32_append (v : Word) (rest : List Byte) : ofBe32 (be32 v ++ rest) = v := by
  apply BitVec.eq_of_toNat_eq
  simp only [be32, List.cons_append, List.nil_append, ofBe32_toNat, toNat_extract_byte]
  omega

/-- R62: the digits of the big-endian sum of four bytes are those bytes. -/
theorem be32_ofBe32 (x y z u : Byte) (rest : List Byte) : be32 (ofBe32 (x :: y :: z :: u :: rest)) = [x, y, z, u] := by
  simp only [be32, List.cons.injEq, ← BitVec.toNat_inj, toNat_extract_byte, ofBe32_toNat, and_true]
  omega

/-- Settles O36: the big-endian sum is what is read, and its digits are what is written. -/
theorem firstRowIndexSerialisesBigEndian : Obligations.FirstRowIndexSerialisesBigEndian :=
  ⟨ofBe32_be32_append, be32_ofBe32, ofBe32_toNat⟩

end Sys2Proof.Machine
end

section
/-! PROOFS, 30_encoding.md, words. The fields a format keeps say which fields a command of that format can have: so a
word that decodes is its command's word, and the `mask` of a row covers exactly what its format must have zero. -/

namespace Sys2Proof.Machine

open Sys2Proof

/-! ## The decoder, said once -/

theorem decode_eq_ok {w : Word64} {i : Instr} :
    decode w = .ok i ↔ instrOf (fieldsOf w) = some i ∧ mustBeZeroOk i.format (fieldsOf w) = true := by
  unfold decode
  constructor
  · intro h
    split at h
    · cases h
    · next j hj =>
      split at h
      · next hz => cases h; exact ⟨hj, hz⟩
      · cases h
  · rintro ⟨hi, hz⟩
    simp [hi, hz]

/-- R99: the opcode is looked at first. -/
theorem decode_reserved {w : Word64} (h : instrOf (fieldsOf w) = none) : decode w = .error .reservedOpcode := by
  simp [decode, h]

/-- R100: then the must-be-zero bits of the command's format. -/
theorem decode_nonzero {w : Word64} {i : Instr} (hi : instrOf (fieldsOf w) = some i)
    (hz : ¬ mustBeZeroOk i.format (fieldsOf w) = true) : decode w = .error .nonzeroField := by
  simp [decode, hi, hz]

/-! ## The fields a format keeps -/

/-- The four fields of a command's word (30_encoding.md R108). -/
def fieldsOfInstr (i : Instr) : CommandFields := ⟨opcode i, regOperand i, 0, immOperand i⟩

/-- The fields with every must-be-zero bit of the format cleared (30_encoding.md R92). -/
def keptFields : Format → CommandFields → CommandFields
  | .z, f => ⟨f.op, 0, 0, 0⟩
  | .b, f => ⟨f.op, 0, 0, (byteOperand f).setWidth 32⟩
  | .w, f => ⟨f.op, 0, 0, f.imm⟩
  | .r, f => ⟨f.op, f.reg, 0, 0⟩
  | .rw, f => ⟨f.op, f.reg, 0, f.imm⟩

theorem keptFields_op (fmt : Format) (f : CommandFields) : (keptFields fmt f).op = f.op := by
  cases fmt <;> rfl

/-- A word below 256 is the extension of its low byte. -/
theorem setWidth_low_byte {x : Word} (h : x.extractLsb' 8 24 = 0) : (x.extractLsb' 0 8).setWidth 32 = x := by
  have hhigh : x.toNat / 2 ^ 8 % 2 ^ 24 = 0 := by
    simpa [BitVec.extractLsb'_toNat, Nat.shiftRight_eq_div_pow] using congrArg BitVec.toNat h
  apply BitVec.eq_of_toNat_eq
  rw [BitVec.toNat_setWidth, toNat_extract_byte]
  omega

/-- R92: with the must-be-zero bits zero, clearing them changes nothing. -/
theorem keptFields_of_mustBeZeroOk {fmt : Format} {f : CommandFields} (h : mustBeZeroOk fmt f = true) :
    keptFields fmt f = f := by
  obtain ⟨op, reg, rsv, imm⟩ := f
  cases fmt <;> simp_all [mustBeZeroOk, keptFields, byteOperand, setWidth_low_byte]

/-- R95, R96, R98: a command has the fields its format keeps of the word it is read from. -/
theorem fieldsOfInstr_of_instrOf {f : CommandFields} {i : Instr} (h : instrOf f = some i) :
    fieldsOfInstr i = keptFields i.format f := by
  unfold instrOf at h
  split at h <;> cases h
  all_goals
    rename_i hop
    exact congrArg (fun op => CommandFields.mk op _ _ _) (BitVec.eq_of_toNat_eq hop.symm)

theorem opcode_of_instrOf {f : CommandFields} {i : Instr} (h : instrOf f = some i) : opcode i = f.op := by
  rw [← keptFields_op i.format f, ← fieldsOfInstr_of_instrOf h, fieldsOfInstr]

theorem wordFields (i : Instr) : Laws.WordFields.Statement i := by
  cases i with
  | nop => exact Laws.WordFields.nop
  | reset => exact Laws.WordFields.reset
  | clr => exact Laws.WordFields.clr
  | clrerr => exact Laws.WordFields.clrerr
  | setr reg x => exact Laws.WordFields.setr reg x
  | getr reg => exact Laws.WordFields.getr reg
  | putb x => exact Laws.WordFields.putb x
  | getb => exact Laws.WordFields.getb
  | srkSort => exact Laws.WordFields.srkSort
  | srkRdord k => exact Laws.WordFields.srkRdord k
  | srkChr => exact Laws.WordFields.srkChr
  | srkCmp => exact Laws.WordFields.srkCmp
  | srkCmpr => exact Laws.WordFields.srkCmpr
  | bwtFwd => exact Laws.WordFields.bwtFwd
  | bwtInv => exact Laws.WordFields.bwtInv
  | mtfInit => exact Laws.WordFields.mtfInit
  | mtfEnc x => exact Laws.WordFields.mtfEnc x
  | mtfDec k => exact Laws.WordFields.mtfDec k

/-- Settles O1: the four fields of the word are the command's own, which give it back. -/
theorem everyCommandDecodesFromItsWord : Obligations.EveryCommandDecodesFromItsWord := by
  intro i
  obtain ⟨hfields, hinstr, hzero⟩ := wordFields i
  rw [decode_eq_ok, hfields]
  exact ⟨hinstr, hzero⟩

/-- Settles O2: the word's fields are those its format keeps, which are the command's. -/
theorem everyDecodedWordIsTheWordOfItsCommand : Obligations.EveryDecodedWordIsTheWordOfItsCommand := by
  intro w i h
  obtain ⟨hinstr, hzero⟩ := decode_eq_ok.mp h
  calc encode i
    _ = wordOf (fieldsOfInstr i) := rfl
    _ = wordOf (keptFields i.format (fieldsOf w)) := by rw [fieldsOfInstr_of_instrOf hinstr]
    _ = wordOf (fieldsOf w) := by rw [keptFields_of_mustBeZeroOk hzero]
    _ = w := wordOf_fieldsOf w

/-- A line and its printed word: reading the word back is O1. -/
theorem decode_of_encode {i : Instr} {w : Word64} (h : encode i = w) : encode i = w ∧ decode w = .ok i :=
  ⟨h, h ▸ everyCommandDecodesFromItsWord i⟩

/-- Settles O6: each printed word is the word of its line, and so decodes to the line. -/
theorem commandWordsOfTheSpecsExamples : Obligations.CommandWordsOfTheSpecsExamples :=
  ⟨fun _ => rfl, decode_of_encode rfl, decode_of_encode rfl, decode_of_encode rfl, decode_of_encode rfl,
    decode_of_encode rfl, decode_of_encode rfl, decode_of_encode rfl, decode_of_encode rfl⟩

/-! ## The mask and match table -/

/-- The bits of a word that a format fixes: the opcode's and those that must be zero (30_encoding.md R92). -/
def maskFields : Format → CommandFields
  | .z => ⟨0xFF, 0xFF, 0xFFFF, 0xFFFFFFFF⟩
  | .b => ⟨0xFF, 0xFF, 0xFFFF, 0xFFFFFF00⟩
  | .w => ⟨0xFF, 0xFF, 0xFFFF, 0⟩
  | .r => ⟨0xFF, 0, 0xFFFF, 0xFFFFFFFF⟩
  | .rw => ⟨0xFF, 0, 0xFFFF, 0⟩

/-- The row of a command, from its mnemonic, its format and its opcode. -/
def rowOf (i : Instr) : OpcodeRow :=
  ⟨i.mnemonic, i.format, wordOf ⟨opcode i, 0, 0, 0⟩, wordOf (maskFields i.format)⟩

/-- One command of each row, its operands 0, in the order of the table. -/
def commandOfEachRow : List Instr :=
  [.nop, .reset, .clr, .clrerr, .setr 0 0, .getr 0, .putb 0, .getb, .srkSort, .srkRdord 0, .srkChr, .srkCmp, .srkCmpr,
   .bwtFwd, .bwtInv, .mtfInit, .mtfEnc 0, .mtfDec 0]

theorem opcodeRows_eq : opcodeRows = commandOfEachRow.map rowOf := by decide

/-- R98: the rows of the table are those of the commands. -/
theorem mem_opcodeRows {r : OpcodeRow} : r ∈ opcodeRows ↔ ∃ i, r = rowOf i := by
  rw [opcodeRows_eq, List.mem_map]
  constructor
  · rintro ⟨i, -, rfl⟩
    exact ⟨i, rfl⟩
  · rintro ⟨i, rfl⟩
    cases i with
    | setr _ _ => exact ⟨.setr 0 0, by decide, rfl⟩
    | getr _ => exact ⟨.getr 0, by decide, rfl⟩
    | putb _ => exact ⟨.putb 0, by decide, rfl⟩
    | srkRdord _ => exact ⟨.srkRdord 0, by decide, rfl⟩
    | mtfEnc _ => exact ⟨.mtfEnc 0, by decide, rfl⟩
    | mtfDec _ => exact ⟨.mtfDec 0, by decide, rfl⟩
    | _ => exact ⟨_, by decide, rfl⟩

theorem opField_rowOf (i : Instr) : opField (rowOf i).pattern = opcode i := opField_wordOf _

/-- R98: fields with the opcode of a row give a command of that row, whatever the other fields are. -/
theorem exists_instrOf_of_opcode {f : CommandFields} {j : Instr} (hop : f.op = opcode j) :
    ∃ i, instrOf f = some i ∧ rowOf i = rowOf j := by
  obtain ⟨op, reg, rsv, imm⟩ := f
  subst hop
  cases j <;> exact ⟨_, rfl, rfl⟩

/-- The fields of two words combine one by one. -/
theorem wordOf_and (f g : CommandFields) :
    wordOf f &&& wordOf g = wordOf ⟨f.op &&& g.op, f.reg &&& g.reg, f.rsv &&& g.rsv, f.imm &&& g.imm⟩ := by
  simp only [wordOf, ← BitVec.and_append]

theorem wordOf_inj {f g : CommandFields} : wordOf f = wordOf g ↔ f = g :=
  ⟨fun h => by rw [← fieldsOf_wordOf f, h, fieldsOf_wordOf], congrArg wordOf⟩

/-- R92: the mask of format B leaves the byte operand free and nothing else of `IMM`. -/
theorem and_byteMask_eq_zero {x : Word} : x &&& 0xFFFFFF00 = 0 ↔ x.extractLsb' 8 24 = 0 := by
  constructor
  · intro h
    have hhigh : x.extractLsb' 8 24 &&& BitVec.allOnes 24 = 0 := by
      simpa [BitVec.extractLsb'_and] using congrArg (BitVec.extractLsb' 8 24) h
    rwa [BitVec.and_allOnes] at hhigh
  · intro h
    have hlow (y : Byte) : y.setWidth 32 &&& 0xFFFFFF00#32 = 0 := by
      revert y
      decide
    rw [← setWidth_low_byte h]
    exact hlow _

/-- R92, R98: fields agree with an opcode in the bits of a format's mask when they have that opcode and the format's
must-be-zero bits are zero. -/
theorem and_maskFields_eq {f : CommandFields} {op : Byte} {fmt : Format} :
    wordOf f &&& wordOf (maskFields fmt) = wordOf ⟨op, 0, 0, 0⟩ ↔ f.op = op ∧ mustBeZeroOk fmt f = true := by
  have hop (x : Byte) : x &&& 0xFF = x := BitVec.and_allOnes
  have hrsv (x : Half) : x &&& 0xFFFF = x := BitVec.and_allOnes
  have himm (x : Word) : x &&& 0xFFFFFFFF = x := BitVec.and_allOnes
  have hfree {n : Nat} (x : BitVec n) : x &&& 0 = 0 := BitVec.and_zero
  rw [wordOf_and, wordOf_inj]
  cases fmt <;>
    simp only [maskFields, mustBeZeroOk, hop, hrsv, himm, hfree, and_byteMask_eq_zero, CommandFields.mk.injEq,
      Bool.and_eq_true, beq_iff_eq, true_and, and_comm, and_left_comm]

/-- R98: a row covers a word that has its opcode and the must-be-zero bits of its format zero. -/
theorem rowOf_covers_iff {i : Instr} {w : Word64} :
    w &&& (rowOf i).mask = (rowOf i).pattern ↔ opField w = opcode i ∧ mustBeZeroOk i.format (fieldsOf w) = true := by
  conv_lhs => rw [← wordOf_fieldsOf w]
  exact and_maskFields_eq

/-- Settles O3: a command's row covers its word, and a row's opcode gives the row's command. -/
theorem decoderAcceptsExactlyTheMaskMatchRows : Obligations.DecoderAcceptsExactlyTheMaskMatchRows := by
  refine ⟨by decide, fun w i h => ?_, fun w r hr hcovers => ?_⟩
  · obtain ⟨-, hzero⟩ := decode_eq_ok.mp h
    exact ⟨rowOf i, mem_opcodeRows.mpr ⟨i, rfl⟩, rowOf_covers_iff.mpr ⟨(opcode_of_decode h).symm, hzero⟩, rfl, rfl⟩
  · obtain ⟨j, rfl⟩ := mem_opcodeRows.mp hr
    obtain ⟨hop, -⟩ := rowOf_covers_iff.mp hcovers
    obtain ⟨i, hinstr, hrow⟩ := exists_instrOf_of_opcode (f := fieldsOf w) hop
    rw [← hrow] at hcovers ⊢
    obtain ⟨-, hzero⟩ := rowOf_covers_iff.mp hcovers
    exact ⟨i, decode_eq_ok.mpr ⟨hinstr, hzero⟩, rfl⟩

end Sys2Proof.Machine
end

section
/-! PROOFS, 30_encoding.md, transactions. What a step on a presented word answers: the decode errors, the decoded
command, and the one response word. -/

namespace Sys2Proof.Machine

open Sys2Proof

/-! ## A step on a presented word -/

section presented
variable {s : State} {w : Word64} {rest : List HostEvent} (hi : s.inputs = .command w :: rest)
include hi

theorem step_of_decode_ok {i : Instr} (hd : decode w = .ok i) : step s = exec i { s with inputs := rest } := by
  simp only [step, hi, accept, transact, hd]

theorem step_of_decode_error {e : DecodeReject} (hd : decode w = .error e) :
    step s = .next (afterError { s with inputs := rest } (opField w) (rejectCause e).code) := by
  simp only [step, hi, accept, transact, hd, raise_eq_afterError]

/-- R90: the step is total. -/
theorem step_command_answers : ∃ t, step s = .next t := by
  cases hd : decode w with
  | error e => exact ⟨_, step_of_decode_error hi hd⟩
  | ok i =>
    rw [step_of_decode_ok hi hd]
    rcases exec_cases i { s with inputs := rest } with ⟨c, -, hx⟩ | ⟨v, u, -, hx⟩
    · exact ⟨_, hx⟩
    · exact ⟨_, hx⟩

end presented

/-- Settles O7: the step's own definition at a word that decodes. -/
theorem stepRunsTheDecodedCommand : Obligations.StepRunsTheDecodedCommand :=
  fun _ _ _ _ hi hd => step_of_decode_ok hi hd

/-! ## The decode errors -/

/-- R98, R99: no command has a reserved opcode. -/
theorem opcode_not_reserved (i : Instr) : ¬ ReservedOpcode (opcode i).toNat := by
  cases i <;> simp only [opcode] <;> decide

theorem instrOf_of_reservedOpcode {f : CommandFields} (h : ReservedOpcode f.op.toNat) : instrOf f = none := by
  cases hi : instrOf f with
  | none => rfl
  | some i =>
    rw [← opcode_of_instrOf hi] at h
    exact absurd h (opcode_not_reserved i)

set_option maxRecDepth 2000 in
/-- R99: the ranges hold 238 of the 256 opcodes, all but those of the map. -/
theorem reservedOpcode_count : ((List.range 256).filter fun op => decide (ReservedOpcode op)).length = 238 := by decide

/-- Settles O4: there are 238 of them, and a reserved opcode gives no command. -/
theorem reservedOpcodesRaiseIcOpcode : Obligations.ReservedOpcodesRaiseIcOpcode :=
  ⟨reservedOpcode_count, fun _ _ _ hreserved hi =>
    step_of_decode_error hi (decode_reserved (instrOf_of_reservedOpcode hreserved))⟩

/-- Settles O5: the row's opcode gives a command of the row, and a word the row does not cover has a must-be-zero bit of
its format set. -/
theorem nonzeroReservedBitsRaiseIcField : Obligations.NonzeroReservedBitsRaiseIcField := by
  intro s w rest r hr hop hnot hi
  obtain ⟨j, rfl⟩ := mem_opcodeRows.mp hr
  have hopcode : opField w = opcode j := hop.symm.trans (opField_rowOf j)
  obtain ⟨i, hinstr, hrow⟩ := exists_instrOf_of_opcode (f := fieldsOf w) hopcode
  rw [← hrow] at hnot
  have hzero : ¬ mustBeZeroOk i.format (fieldsOf w) = true := fun hz =>
    hnot (rowOf_covers_iff.mpr ⟨(opcode_of_instrOf hinstr).symm, hz⟩)
  exact step_of_decode_error hi (decode_nonzero hinstr hzero)

/-! ## The response -/

/-- R90: every way a command word can end appends one response and leaves the rest of the host's list. -/
theorem step_command_response {s t : State} {w : Word64} {rest : List HostEvent} (hi : s.inputs = .command w :: rest)
    (h : step s = .next t) : ∃ r, t.responses = s.responses ++ [r] ∧ t.inputs = rest := by
  rcases step_command_cases hi h with ⟨c, rfl⟩ | ⟨i, v, u, -, hu, rfl⟩
  · exact ⟨rspErr c.code, rfl, rfl⟩
  · obtain ⟨hresponses, hinputs⟩ := effect_responses_inputs hu
    exact ⟨rspOk v, by simp [hresponses], by simp [hinputs]⟩

/-- Settles O8: the step on a command word answers and appends one response; the reset event only keeps the host's
lists. -/
theorem everyPresentedCommandReturnsOneResponse : Obligations.EveryPresentedCommandReturnsOneResponse := by
  refine ⟨fun s w rest hi => ?_, fun s w rest hi => ?_⟩
  · obtain ⟨t, ht⟩ := step_command_answers hi
    obtain ⟨r, hresponses, hinputs⟩ := step_command_response hi ht
    exact ⟨t, r, ht, hresponses, hinputs⟩
  · exact ⟨resetBlock { s with inputs := rest }, by simp only [step, hi, accept], rfl, rfl⟩

section responseFields
variable (v : Word) (c : Cause)

theorem rspOk_zeroBits : (rspOk v).extractLsb' 40 23 = 0 := by
  rw [rspOk_eq]
  apply BitVec.eq_of_getLsbD_eq
  intro i hi
  have hbeyond : v.getLsbD (40 + i) = false := BitVec.getLsbD_of_ge v _ (by omega)
  simp [hbeyond]

theorem causeField_rspOk : causeField (rspOk v) = 0 := by
  rw [rspOk_eq]
  apply BitVec.eq_of_getLsbD_eq
  intro i hi
  simp [causeField]

theorem valueField_rspOk : valueField (rspOk v) = v := by
  rw [rspOk_eq, valueField, BitVec.extractLsb'_setWidth_of_le (by decide), BitVec.extractLsb'_eq_self]

theorem rspErr_zeroBits : (rspErr c.code).extractLsb' 40 23 = 0 := by
  cases c <;> rfl

theorem valueField_rspErr : valueField (rspErr c.code) = 0 := by
  cases c <;> rfl

end responseFields

/-- R231: the causes are the eleven codes of the table. -/
theorem code_mem (c : Cause) :
    c.code ∈ [0x01#8, 0x02#8, 0x03#8, 0x10#8, 0x11#8, 0x12#8, 0x13#8, 0x14#8, 0x15#8, 0x16#8, 0x17#8] := by
  cases c <;> decide

/-- R93, R97: a command with no result answers 0. -/
theorem effect_value_eq_zero {i : Instr} {s u : State} {v : Word} (h : Effect i s v u) (hno : HasResult i = false) :
    v = 0 := by
  cases i with
  | nop | reset | clr | clrerr | mtfInit => obtain ⟨hv, -⟩ := h; exact hv
  | putb _ | srkSort | bwtFwd => obtain ⟨-, hv, -⟩ := h; exact hv
  | setr _ _ => obtain ⟨-, -, -, -, hv, -⟩ := h; exact hv
  | bwtInv => obtain ⟨-, -, hv, -⟩ := h; exact hv
  | getr _ | getb | srkRdord _ | srkChr | srkCmp | srkCmpr | mtfEnc _ | mtfDec _ => cases hno

/-- Settles O9: the fields of the two response words, and the value of a command with no result. -/
theorem responseWordsKeepTheirForm : Obligations.ResponseWordsKeepTheirForm := by
  intro s t w rest hi h
  rcases step_command_cases hi h with ⟨c, rfl⟩ | ⟨i, v, u, hd, hu, rfl⟩
  · refine ⟨rspErr c.code, rfl, rspErr_zeroBits c, ?_, fun _ => ⟨valueField_rspErr c, ?_⟩,
      fun _ _ _ => valueField_rspErr c⟩
    · simp [errBit_rspErr]
    · rw [causeField_rspErr]
      exact code_mem c
  · obtain ⟨hresponses, -⟩ := effect_responses_inputs hu
    refine ⟨rspOk v, by simp [hresponses], rspOk_zeroBits v, fun _ => causeField_rspOk v, ?_, fun j hj hno => ?_⟩
    · simp [errBit_rspOk]
    · obtain rfl : i = j := by simpa [hd] using hj
      rw [valueField_rspOk]
      exact effect_value_eq_zero hu hno

end Sys2Proof.Machine
end

section
/-! PROOFS, 40_system_and_buffer.md. What each system, register and buffer command answers, in the words of the statements:
which register numbers `SETR` and `GETR` refuse, and the two ends of the input and of the output. -/

namespace Sys2Proof.Machine

open Sys2Proof

/-! ## The system commands -/

/-- R260: one step on the reset event. -/
theorem step_of_reset_event {s : State} {rest : List HostEvent} (hi : s.inputs = .reset :: rest) :
    step s = .next { State.reset with inputs := rest, responses := s.responses } := by
  simp only [step, hi, accept, resetBlock]

/-- Settles O14: `NOP` only succeeds with 0. -/
theorem nopOnlyResponds : Obligations.NopOnlyResponds := fun s => by
  simp only [exec, execNop, succeed_eq_afterOk]

/-- Settles O15: the command and the reset event both run `resetBlock`. -/
theorem resetCommandEqualsTheResetEvent : Obligations.ResetCommandEqualsTheResetEvent := fun s =>
  ⟨by simp only [exec, execReset, resetBlock, succeed_eq_afterOk], fun _ => step_of_reset_event rfl⟩

/-- Settles O16: `CLR` empties the buffers and clears `ORDV`, then succeeds with 0. -/
theorem clrEmptiesTheBuffers : Obligations.ClrEmptiesTheBuffers := fun s => by
  simp only [exec, execClr, clearOrdv, emptyBuffers, succeed_eq_afterOk]

/-- Settles O17: `CLRERR` clears the error record, then succeeds with 0. -/
theorem clrerrClearsTheErrorRecord : Obligations.ClrerrClearsTheErrorRecord := fun s => by
  simp only [exec, execClrerr, clearError, succeed_eq_afterOk]

/-! ## The register commands -/

/-- R35, R96: 5 to 7 and 14 and above name no register. -/
theorem regOf_reserved {r : Byte} (h : 5 ≤ r.toNat ∧ r.toNat ≤ 7 ∨ 14 ≤ r.toNat) : regOf r = none := by
  rcases regOf_cases r with ⟨hnone, -⟩ | ⟨q, -, rfl⟩
  · exact hnone
  · cases q <;> revert h <;> decide

/-- R124: only `N`, `A`, `B` and `D` can be written. -/
theorem number_mem_of_writable {q : Reg} (h : q.writable = true) : q.number ∈ [0#8, 2#8, 3#8, 4#8] := by
  cases q with
  | n | a | b | d => decide
  | fri | status | ecause | ilen | olen | orp | cap => cases h

section setr
variable (s : State) (v : Word)

/-- R124: a reserved number and that of a read-only register are refused alike. -/
theorem exec_setr_unwritable {r : Byte} (hr : r ∉ [0#8, 2#8, 3#8, 4#8]) :
    exec (.setr r v) s = .next (afterError s 0x08 0x12) := by
  simp only [exec, execSetr]
  split
  · exact congrArg _ (raise_eq_afterError ..)
  · next q hq =>
    have hw : q.writable = false :=
      Bool.eq_false_iff.mpr fun hw => hr (number_of_regOf hq ▸ number_mem_of_writable hw)
    rw [if_pos hw]
    exact congrArg _ (raise_eq_afterError ..)

/-- R124: a length above the capacity is refused. -/
theorem exec_setr_n_above (hv : NMAX < v.toNat) :
    exec (.setr Reg.n.number v) s = .next (afterError s 0x08 0x13) := by
  simp only [exec, execSetr, regOf_number, Reg.writable, reduceCtorEq, if_false, true_and, if_pos hv,
    raise_eq_afterError, opcode, Cause.code]

/-- R124: a writable register takes the value, `N` one up to the capacity. -/
theorem exec_setr_writes {r : Reg} (hw : r.writable = true) (hv : r = .n → v.toNat ≤ NMAX) :
    exec (.setr r.number v) s = .next (afterOk (writeReg r v s) 0) := by
  have hle : ¬ (r = .n ∧ NMAX < v.toNat) := fun ⟨hn, hlt⟩ => Nat.not_lt.mpr (hv hn) hlt
  simp only [exec, execSetr, regOf_number, hw, reduceCtorEq, if_false, if_neg hle, succeed_eq_afterOk]

end setr

/-- Settles O18: the refusals of `SETR`, and its write at each of the four registers. -/
theorem setrWritesOrRefuses : Obligations.SetrWritesOrRefuses := fun s v =>
  ⟨fun _ => exec_setr_unwritable s v, exec_setr_n_above s v, fun hv => exec_setr_writes s v (r := .n) rfl fun _ => hv,
    exec_setr_writes s v (r := .a) rfl nofun, exec_setr_writes s v (r := .b) rfl nofun,
    exec_setr_writes s v (r := .d) rfl nofun⟩

theorem exec_getr_reserved (s : State) {r : Byte} (h : 5 ≤ r.toNat ∧ r.toNat ≤ 7 ∨ 14 ≤ r.toNat) :
    exec (.getr r) s = .next (afterError s 0x09 0x12) := by
  simp only [exec, execGetr, regOf_reserved h, raise_eq_afterError, opcode, Cause.code]

/-- Settles O19: the refusal of `GETR`, and its reading rule at each register of R20. -/
theorem getrReadsOrRefuses : Obligations.GetrReadsOrRefuses := fun s =>
  ⟨fun _ => exec_getr_reserved s, exec_getr_number .n s, exec_getr_number .fri s, exec_getr_number .a s,
    exec_getr_number .b s, exec_getr_number .d s, exec_getr_number .status s, exec_getr_number .ecause s,
    exec_getr_number .ilen s, exec_getr_number .olen s, exec_getr_number .orp s, exec_getr_number .cap s⟩

/-! ## The buffer commands -/

theorem exec_putb_full {s : State} (x : Byte) (h : s.ibuf.length = NMAX + 4) :
    exec (.putb x) s = .next (afterError s 0x10 0x14) := by
  simp only [exec, execPutb, if_pos h, raise_eq_afterError, opcode, Cause.code]

theorem exec_putb_room {s : State} (x : Byte) (h : s.ibuf.length ≠ NMAX + 4) :
    exec (.putb x) s = .next (afterOk { s with ibuf := s.ibuf ++ [x], ordv := false } 0) := by
  simp only [exec, execPutb, if_neg h, succeed_eq_afterOk, clearOrdv, ibufAppend]

/-- Settles O20: the input with the byte appended reads as the old input below its end and as the byte there. -/
theorem putbAppendsOrOverflows : Obligations.PutbAppendsOrOverflows := fun _ x =>
  ⟨exec_putb_full x, fun hroom => ⟨_, exec_putb_room x hroom, rfl, List.length_append,
    List.getElem?_concat_length, fun _ hi => List.getElem?_append_left hi⟩⟩

theorem exec_getb_underflow {s : State} (h : obufNext s = none) : exec .getb s = .next (afterError s 0x11 0x15) := by
  simp only [exec, execGetb, h, raise_eq_afterError, opcode, Cause.code]

theorem exec_getb_next {s : State} {v : Byte} (h : obufNext s = some v) :
    exec .getb s = .next (afterOk { s with orp := s.orp + 1 } (v.setWidth 32)) := by
  simp only [exec, execGetb, h, succeed_eq_afterOk, zext, advanceOrp]

/-- Settles O21: at the end of the output there is no next byte, and below the end there is one. -/
theorem getbReadsInOrderOrUnderflows : Obligations.GetbReadsInOrderOrUnderflows := fun s =>
  ⟨fun hend => exec_getb_underflow (obufNext_eq_none.mpr hend.ge), fun hlt =>
    have hnext : obufNext s = some s.obuf[s.orp.toNat] := List.getElem?_eq_getElem hlt
    ⟨_, hnext, exec_getb_next hnext⟩⟩

end Sys2Proof.Machine
end

section
/-! PROOFS, 41_suffix_ranker.md, rotations. A rotation is read as one key in a linear order, the tuple of its bytes compared
lexicographically, so that the comparisons of 00_scope.md R14 and of `SRK.CMPR` are those of the order. -/

namespace Sys2Proof.Machine

open Sys2Proof

/-! ## Rotations as keys -/

/-- `rot(b, i)` as a tuple of unsigned bytes, in the lexicographic order of tuples (00_scope.md R12, R14). -/
def rotKey (b : List Byte) (i : Nat) : Lex (Fin b.length → Nat) := toLex fun t => (rotByte b i t).toNat

/-- Inside a rotation the byte is there (00_scope.md R14). -/
theorem getElem?_rotation {b : List Byte} {t : Nat} (ht : t < b.length) (i : Nat) :
    b[(i + t) % b.length]? = some (rotByte b i t) := by
  have hlt : (i + t) % b.length < b.length := Nat.mod_lt _ (by omega)
  rw [rotByte, List.getD_eq_getElem _ _ hlt, List.getElem?_eq_getElem hlt]

theorem rotEq_iff_rotKey_eq {b : List Byte} {i j : Nat} : RotEq b i j ↔ rotKey b i = rotKey b j := by
  constructor
  · intro h
    refine congrArg toLex (funext fun t => ?_)
    have ht := h t t.isLt
    rw [getElem?_rotation t.isLt, getElem?_rotation t.isLt, Option.some.injEq] at ht
    rw [ht]
  · intro h t ht
    have hbyte : (rotByte b i t).toNat = (rotByte b j t).toNat := congrFun (toLex.injective h) ⟨t, ht⟩
    rw [getElem?_rotation ht, getElem?_rotation ht, BitVec.toNat_inj.mp hbyte]

theorem rotLt_iff_rotKey_lt {b : List Byte} {i j : Nat} : RotLt b i j ↔ rotKey b i < rotKey b j := by
  constructor
  · rintro ⟨t, ht, hbelow, x, y, hx, hy, hxy⟩
    rw [getElem?_rotation ht, Option.some.injEq] at hx hy
    refine ⟨⟨t, ht⟩, fun u hu => ?_, ?_⟩
    · have hu' := hbelow u hu
      rw [getElem?_rotation u.isLt, getElem?_rotation u.isLt, Option.some.injEq] at hu'
      exact congrArg BitVec.toNat hu'
    · show (rotByte b i t).toNat < (rotByte b j t).toNat
      rwa [hx, hy]
  · rintro ⟨t, hbelow, hlt⟩
    refine ⟨t, t.isLt, fun u hu => ?_, _, _, getElem?_rotation t.isLt i, getElem?_rotation t.isLt j, hlt⟩
    have hun : u < b.length := Nat.lt_trans hu t.isLt
    have hbyte : (rotByte b i u).toNat = (rotByte b j u).toNat := hbelow ⟨u, hun⟩ hu
    rw [getElem?_rotation hun, getElem?_rotation hun, BitVec.toNat_inj.mp hbyte]

theorem rotLe_iff_rotKey_le {b : List Byte} {i j : Nat} : RotLe b i j ↔ rotKey b i ≤ rotKey b j := by
  rw [RotLe, rotLt_iff_rotKey_lt, rotEq_iff_rotKey_eq]
  exact le_iff_lt_or_eq.symm

/-- A suffix order lists the keys in non-decreasing order, neighbours or not (00_scope.md R16). -/
theorem isSuffixOrder_iff {b : List Byte} {order : List Nat} :
    IsSuffixOrder b order ↔
      order.Perm (List.range b.length) ∧ order.Pairwise fun i j => rotKey b i ≤ rotKey b j := by
  have htrans : IsTrans Nat fun i j => rotKey b i ≤ rotKey b j := ⟨fun _ _ _ => le_trans⟩
  rw [IsSuffixOrder, ← List.isChain_iff_pairwise, List.isChain_iff_getElem]
  simp only [rotLe_iff_rotKey_le]
  refine and_congr_right fun _ => ⟨fun h k hk => ?_, fun h k i j hi hj => ?_⟩
  · exact h k _ _ (List.getElem?_eq_getElem (by omega)) (List.getElem?_eq_getElem hk)
  · obtain ⟨hk, rfl⟩ := List.getElem?_eq_some_iff.mp hi
    obtain ⟨hk1, rfl⟩ := List.getElem?_eq_some_iff.mp hj
    exact h k hk1

/-! ## Rotations that agree up to a depth -/

/-- Two rotations have the same first `d` bytes. -/
def AgreeBelow (b : List Byte) (d i j : Nat) : Prop := ∀ t, t < d → rotByte b i t = rotByte b j t

theorem AgreeBelow.succ {b : List Byte} {d i j : Nat} (h : AgreeBelow b d i j) (hd : rotByte b i d = rotByte b j d) :
    AgreeBelow b (d + 1) i j := fun t ht =>
  (Nat.lt_succ_iff_lt_or_eq.mp ht).elim (h t) fun htd => htd ▸ hd

/-- Rotations that agree to depth `n` or beyond are equal. -/
theorem rotKey_eq_of_agreeBelow {b : List Byte} {d i j : Nat} (h : AgreeBelow b d i j) (hd : b.length ≤ d) :
    rotKey b i = rotKey b j :=
  congrArg toLex (funext fun t => congrArg BitVec.toNat (h t (Nat.lt_of_lt_of_le t.isLt hd)))

/-- The first difference decides. -/
theorem rotKey_lt_of_agreeBelow {b : List Byte} {d i j : Nat} (h : AgreeBelow b d i j) (hd : d < b.length)
    (hlt : (rotByte b i d).toNat < (rotByte b j d).toNat) : rotKey b i < rotKey b j :=
  ⟨⟨d, hd⟩, fun u hu => congrArg BitVec.toNat (h u hu), hlt⟩

theorem charAt_of_lt {b : List Byte} {d : Nat} (hd : d < b.length) (i : Nat) :
    charAt b i d = ((rotByte b i d).toNat : Int) := if_pos hd

theorem charAt_of_length_le {b : List Byte} {d : Nat} (hd : b.length ≤ d) (i : Nat) : charAt b i d = -1 :=
  if_neg (Nat.not_lt.mpr hd)

/-- The sentinel is the only character below 0, and stands at the depths from `n` on. -/
theorem charAt_nonneg_iff {b : List Byte} {i d : Nat} : 0 ≤ charAt b i d ↔ d < b.length := by
  unfold charAt
  split <;> omega

/-- R155: at the depth up to which they agree, the characters order the rotations. -/
theorem rotKey_lt_of_charAt_lt {b : List Byte} {d i j : Nat} (h : AgreeBelow b d i j) (hlt : charAt b i d < charAt b j d) :
    rotKey b i < rotKey b j := by
  rcases Nat.lt_or_ge d b.length with hd | hd
  · rw [charAt_of_lt hd, charAt_of_lt hd, Nat.cast_lt] at hlt
    exact rotKey_lt_of_agreeBelow h hd hlt
  · rw [charAt_of_length_le hd, charAt_of_length_le hd] at hlt
    exact absurd hlt (lt_irrefl _)

/-- R155: equal characters other than the sentinel extend the agreement by one byte. -/
theorem AgreeBelow.succ_of_charAt {b : List Byte} {d i j : Nat} (h : AgreeBelow b d i j)
    (heq : charAt b i d = charAt b j d) (hpos : 0 ≤ charAt b i d) : AgreeBelow b (d + 1) i j := by
  have hd := charAt_nonneg_iff.mp hpos
  rw [charAt_of_lt hd, charAt_of_lt hd, Nat.cast_inj, BitVec.toNat_inj] at heq
  exact h.succ heq

/-! ## The comparison of whole rotations -/

/-- R163: once the rotations agree up to position `t`, comparing the positions left compares the keys. -/
theorem compareFrom_eq_compare {b : List Byte} {i j left t : Nat} (h : AgreeBelow b t i j) (hend : t + left = b.length) :
    compareFrom b i j left t = compare (rotKey b i) (rotKey b j) := by
  induction left generalizing t with
  | zero =>
    rw [compareFrom, rotKey_eq_of_agreeBelow h (by omega), compare_eq_iff_eq.mpr rfl]
  | succ left ih =>
    have ht : t < b.length := by omega
    rw [compareFrom]
    split
    · next hlt => exact (compare_lt_iff_lt.mpr (rotKey_lt_of_agreeBelow h ht hlt)).symm
    · split
      · next hgt =>
        have h' : AgreeBelow b t j i := fun u hu => (h u hu).symm
        exact (compare_gt_iff_gt.mpr (rotKey_lt_of_agreeBelow h' ht hgt)).symm
      · next hge hle => exact ih (h.succ (BitVec.toNat_inj.mp (by omega))) (by omega)

/-- R163: the loop over `n` positions compares the keys. -/
theorem compareRotations_eq_compare (b : List Byte) (i j : Nat) :
    compareRotations b i j = compare (rotKey b i) (rotKey b j) :=
  compareFrom_eq_compare (fun _ ht => absurd ht (Nat.not_lt_zero _)) (Nat.zero_add _)

end Sys2Proof.Machine
end

section
/-! PROOFS, 41_suffix_ranker.md, `PARTITION`. The loop keeps the entries before `lt` below the pivot, those from `lt` to `i`
equal to it and those after `gt` above it, and exchanges entries between `lt` and `gt` only. -/

namespace Sys2Proof.Machine

open Sys2Proof

/-- What a partition of `[lo, hi]` about the pivot `v` at depth `d` leaves: entries of `[lo, lt)` below the pivot, those of
`[lt, gt]` equal to it, those of `(gt, hi]` above it (R155). -/
structure SplitsAbout (b : List Byte) (d : Nat) (v : Int) (lo hi : Nat) (p : Split) : Prop where
  below : ∀ k x, p.ord[k]? = some x → lo ≤ k → k < p.lt → charAt b x d < v
  equal : ∀ k x, p.ord[k]? = some x → p.lt ≤ k → k ≤ p.gt → charAt b x d = v
  above : ∀ k x, p.ord[k]? = some x → p.gt < k → k ≤ hi → v < charAt b x d

/-- A range of equal entries is split already, its other two ranges empty. -/
theorem splitsAbout_of_equal {b : List Byte} {d : Nat} {v : Int} {ord : List Nat} {lt gt : Nat}
    (h : ∀ k x, ord[k]? = some x → lt ≤ k → k ≤ gt → charAt b x d = v) : SplitsAbout b d v lt gt ⟨ord, lt, gt⟩ where
  below _ _ _ h1 h2 := absurd h2 (Nat.not_lt.mpr h1)
  equal := h
  above _ _ _ h1 h2 := absurd h1 (Nat.not_lt.mpr h2)

/-- R155: an exchange, entry by entry. -/
theorem getElem?_swapAt {l : List Nat} {i j : Nat} (hi : i < l.length) (hj : j < l.length) (k : Nat) :
    (swapAt l i j)[k]? = if k = j then l[i]? else if k = i then l[j]? else l[k]? := by
  simp only [swapAt, List.getElem?_set, List.length_set, List.getD_eq_getElem _ _ hi, List.getD_eq_getElem _ _ hj,
    eq_comm (b := k), hi, hj, if_true, List.getElem?_eq_getElem]

theorem length_swapAt (l : List Nat) (i j : Nat) : (swapAt l i j).length = l.length := by
  simp [swapAt]

theorem getD_eq_of_getElem? {l : List Nat} {k x : Nat} (h : l[k]? = some x) : l.getD k 0 = x := by
  simp [h]

/-- R155: the loop touches no entry before `lt` or after `gt`. -/
theorem partitionLoop_frame {b : List Byte} {d : Nat} {v : Int} {turns : Nat} {ord : List Nat} {lt gt i k : Nat}
    (hlt : lt < i) (hgt : gt < ord.length) (hk : k < lt ∨ gt < k) :
    (partitionLoop b d v turns ord lt gt i).ord[k]? = ord[k]? := by
  fun_induction partitionLoop b d v turns ord lt gt i with
  | case1 => rfl
  | case2 turns ord lt gt i hle hless ih =>
    rw [ih (by omega) (by rwa [length_swapAt]) (by omega), getElem?_swapAt (by omega) (by omega),
      if_neg (by omega), if_neg (by omega)]
  | case3 turns ord lt gt i hle hless hmore ih =>
    rw [ih hlt (by rw [length_swapAt]; omega) (by omega), getElem?_swapAt (by omega) hgt,
      if_neg (by omega), if_neg (by omega)]
  | case4 turns ord lt gt i hle hless hmore ih => exact ih (by omega) hgt hk
  | case5 => rfl

/-- R155: the loop sorts the entries from `lt` to `gt` into the three ranges, when those before `i` already equal the
pivot and there are turns for the entries from `i` on. -/
theorem partitionLoop_splits {b : List Byte} {d : Nat} {v : Int} {turns : Nat} {ord : List Nat} {lt gt i : Nat}
    (hlt : lt < i) (hi : i ≤ gt + 1) (hgt : gt < ord.length) (hturns : gt + 1 ≤ i + turns)
    (heq : ∀ k x, ord[k]? = some x → lt ≤ k → k < i → charAt b x d = v) :
    SplitsAbout b d v lt gt (partitionLoop b d v turns ord lt gt i) := by
  fun_induction partitionLoop b d v turns ord lt gt i with
  | case1 ord lt gt i => exact splitsAbout_of_equal fun k x hx h1 h2 => heq k x hx h1 (by omega)
  | case2 turns ord lt gt i hle hless ih =>
    have hread := getElem?_swapAt (l := ord) (i := lt) (j := i) (by omega) (by omega)
    have hlen : gt < (swapAt ord lt i).length := by rwa [length_swapAt]
    have heq' : ∀ k x, (swapAt ord lt i)[k]? = some x → lt + 1 ≤ k → k < i + 1 → charAt b x d = v := by
      intro k x hx h1 h2
      rw [hread] at hx
      split at hx
      · exact heq lt x hx (Nat.le_refl _) hlt
      · rw [if_neg (by omega)] at hx
        exact heq k x hx (by omega) (by omega)
    obtain ⟨hb, he, ha⟩ := ih (by omega) (by omega) hlen (by omega) heq'
    refine ⟨fun k x hx h1 h2 => ?_, he, ha⟩
    rcases Nat.lt_or_eq_of_le h1 with h1 | rfl
    · exact hb k x hx h1 h2
    · rw [partitionLoop_frame (by omega) hlen (by omega), hread, if_neg (by omega), if_pos rfl] at hx
      rwa [getD_eq_of_getElem? hx] at hless
  | case3 turns ord lt gt i hle hless hmore ih =>
    have hread := getElem?_swapAt (l := ord) (i := i) (j := gt) (by omega) hgt
    have hlen : gt - 1 < (swapAt ord i gt).length := by rw [length_swapAt]; omega
    have heq' : ∀ k x, (swapAt ord i gt)[k]? = some x → lt ≤ k → k < i → charAt b x d = v := by
      intro k x hx h1 h2
      rw [hread, if_neg (by omega), if_neg (by omega)] at hx
      exact heq k x hx h1 h2
    obtain ⟨hb, he, ha⟩ := ih hlt (by omega) hlen (by omega) heq'
    refine ⟨hb, he, fun k x hx h1 h2 => ?_⟩
    rcases Nat.lt_or_eq_of_le h2 with h2 | rfl
    · exact ha k x hx h1 (by omega)
    · rw [partitionLoop_frame hlt hlen (by omega), hread, if_pos rfl] at hx
      rwa [getD_eq_of_getElem? hx] at hmore
  | case4 turns ord lt gt i hle hless hmore ih =>
    refine ih (by omega) (by omega) hgt (by omega) fun k x hx h1 h2 => ?_
    rcases Nat.lt_succ_iff_lt_or_eq.mp h2 with h2 | rfl
    · exact heq k x hx h1 h2
    · rw [getD_eq_of_getElem? hx] at hless hmore
      omega
  | case5 turns ord lt gt i hnot => exact splitsAbout_of_equal fun k x hx h1 h2 => heq k x hx h1 (by omega)

section partition
variable (b : List Byte) {ord : List Nat} {r : Range} (hr : r.lo < r.hi) (hhi : r.hi < ord.length)
include hr hhi in
/-- R155: `PARTITION` splits its range about its pivot: the loop starts at the second entry, the first is the pivot's. -/
theorem partition_splits : SplitsAbout b r.d (pivot b ord r) r.lo r.hi (partition b ord r) := by
  refine partitionLoop_splits (Nat.lt_succ_self _) (by omega) hhi (by omega) fun k x hx h1 h2 => ?_
  obtain rfl : k = r.lo := by omega
  rw [pivot, getD_eq_of_getElem? hx]

include hhi in
/-- R155, R158: `PARTITION` touches nothing outside its range. -/
theorem partition_frame {k : Nat} (hk : k < r.lo ∨ r.hi < k) : (partition b ord r).ord[k]? = ord[k]? :=
  partitionLoop_frame (Nat.lt_succ_self _) hhi hk

end partition

/-- Settles O25: the loop's three ranges, its rearrangement and its frame, at the range of the partition. -/
theorem partitionSplitsItsRange : Obligations.PartitionSplitsItsRange := by
  intro b ord r hr hhi
  obtain ⟨hperm, hlo, hmid, hgt⟩ := partition_perm_and_ends b hr hhi
  obtain ⟨hbelow, hequal, habove⟩ := partition_splits b hr hhi
  exact ⟨hperm, hlo, hmid, hgt, fun k x hx => ⟨hbelow k x hx, hequal k x hx, habove k x hx⟩,
    fun _ => partition_frame b hhi⟩

end Sys2Proof.Machine
end

section
/-! PROOFS, 41_suffix_ranker.md, the work stack. The pending ranges stay disjoint and at depth at most `n`; counted with
their depths they have a weight that every partition lowers (R157). -/

namespace Sys2Proof.Machine

open Sys2Proof

/-! ## Ranges -/

/-- The range holds this index of the array. -/
def Range.Has (r : Range) (k : Nat) : Prop := r.lo ≤ k ∧ k ≤ r.hi

/-- The ranges have no index in common, one lying before the other (R157 (a)). -/
def Range.Apart (r q : Range) : Prop := r.hi < q.lo ∨ q.hi < r.lo

/-- The ends of the `=` range lie inside the partitioned range (R155). -/
def Split.Within (p : Split) (r : Range) : Prop := r.lo ≤ p.lt ∧ p.lt ≤ p.gt ∧ p.gt ≤ r.hi

/-- R156: the three ranges `PARTITION` can push, each with two entries at least. -/
theorem mem_pushes {v : Int} {p : Split} {r q : Range} :
    q ∈ pushes v p r ↔
      (r.lo + 1 < p.lt ∧ q = ⟨r.lo, p.lt - 1, r.d⟩) ∨ ((0 ≤ v ∧ p.lt < p.gt) ∧ q = ⟨p.lt, p.gt, r.d + 1⟩) ∨
        (p.gt + 1 < r.hi ∧ q = ⟨p.gt + 1, r.hi, r.d⟩) := by
  simp only [pushes, List.mem_append, List.mem_ite_nil_right, List.mem_singleton]

section pushes
variable {v : Int} {p : Split} {r : Range} (hp : p.Within r)
include hp

/-- R157 (a): what is pushed lies inside the partitioned range. -/
theorem has_of_mem_pushes {q : Range} (hq : q ∈ pushes v p r) {k : Nat} (hk : q.Has k) : r.Has k := by
  obtain ⟨hlo, hmid, hhi⟩ := hp
  obtain ⟨hk1, hk2⟩ := hk
  rcases mem_pushes.mp hq with ⟨h, rfl⟩ | ⟨⟨-, h⟩, rfl⟩ | ⟨h, rfl⟩ <;> dsimp only at hk1 hk2 <;>
    exact ⟨by omega, by omega⟩

theorem apart_of_mem_pushes {q s : Range} (hq : q ∈ pushes v p r) (hs : r.Apart s) : q.Apart s := by
  obtain ⟨hlo, hmid, hhi⟩ := hp
  unfold Range.Apart at hs ⊢
  rcases mem_pushes.mp hq with ⟨h, rfl⟩ | ⟨⟨-, h⟩, rfl⟩ | ⟨h, rfl⟩ <;> dsimp only <;> omega

/-- R157 (a): the three pushed ranges are disjoint. -/
theorem pushes_pairwise_apart : (pushes v p r).Pairwise Range.Apart := by
  obtain ⟨hlo, hmid, hhi⟩ := hp
  unfold pushes
  split <;> split <;> split <;> simp [Range.Apart] <;> omega

end pushes

/-! ## Weights -/

/-- The entries of the pending ranges, each counted as often as `c` says for its depth (R157 (c)). -/
def weightOf (c : Nat → Nat) (stack : List Range) : Nat := (stack.map fun r => (r.hi + 1 - r.lo) * c r.d).sum

@[simp] theorem weightOf_nil (c : Nat → Nat) : weightOf c [] = 0 := rfl

@[simp] theorem weightOf_cons (c : Nat → Nat) (r : Range) (rest : List Range) :
    weightOf c (r :: rest) = (r.hi + 1 - r.lo) * c r.d + weightOf c rest := by
  simp [weightOf]

@[simp] theorem weightOf_append (c : Nat → Nat) (l m : List Range) :
    weightOf c (l ++ m) = weightOf c l + weightOf c m := by
  simp [weightOf]

/-- R157 (c): what is pushed weighs no more than the three ranges, the `=` range at the next depth. -/
theorem weightOf_pushes_le (c : Nat → Nat) (v : Int) (p : Split) (r : Range) :
    weightOf c (pushes v p r) ≤
      (p.lt - r.lo) * c r.d + ((p.gt + 1 - p.lt) * c (r.d + 1) + (r.hi - p.gt) * c r.d) := by
  have hone (cond : Prop) [Decidable cond] (q : Range) {m : Nat} (hm : cond → q.hi + 1 - q.lo = m) :
      weightOf c (if cond then [q] else []) ≤ m * c q.d := by
    split
    · next h => simp [hm h]
    · simp
  rw [pushes, weightOf_append, weightOf_append]
  refine Nat.add_le_add (hone _ _ fun h => ?_) (Nat.add_le_add (hone _ _ fun _ => rfl) (hone _ _ fun h => ?_))
  · show p.lt - 1 + 1 - r.lo = p.lt - r.lo
    omega
  · show r.hi + 1 - (p.gt + 1) = r.hi - p.gt
    omega

section weights
variable (v : Int) {p : Split} {r : Range} (hp : p.Within r)
include hp

/-- R157 (c): the entries of the range are those of the three ranges. -/
theorem range_weight_eq (m : Nat) :
    (r.hi + 1 - r.lo) * m = (p.lt - r.lo) * m + ((p.gt + 1 - p.lt) * m + (r.hi - p.gt) * m) := by
  obtain ⟨hlo, hmid, hhi⟩ := hp
  rw [← Nat.add_mul, ← Nat.add_mul]
  congr 1
  omega

/-- R157 (a): no more entries are pending after a partition than before it. -/
theorem entries_pushes_le : weightOf (fun _ => 1) (pushes v p r) ≤ (r.hi + 1 - r.lo) * 1 :=
  range_weight_eq hp 1 ▸ weightOf_pushes_le _ v p r

/-- R157 (c): the `=` range is not empty, and it goes one level deeper, so a partition lowers the weight. -/
theorem weightOf_pushes_lt {c : Nat → Nat} (hc : c (r.d + 1) < c r.d) :
    weightOf c (pushes v p r) < (r.hi + 1 - r.lo) * c r.d := by
  have hequal : (p.gt + 1 - p.lt) * c (r.d + 1) < (p.gt + 1 - p.lt) * c r.d :=
    Nat.mul_lt_mul_of_pos_left hc (by have := hp.2.1; omega)
  have hle := weightOf_pushes_le c v p r
  have hsum := range_weight_eq hp (c r.d)
  omega

end weights

/-- R157 (a): each pending range has two entries at least. -/
theorem two_mul_length_le_entries {stack : List Range} (h : ∀ r ∈ stack, r.lo < r.hi) :
    2 * stack.length ≤ weightOf (fun _ => 1) stack := by
  induction stack with
  | nil => exact Nat.le_refl 0
  | cons r rest ih =>
    have hr := h r List.mem_cons_self
    have hrest := ih fun q hq => h q (List.mem_cons_of_mem r hq)
    rw [weightOf_cons, List.length_cons]
    omega

/-! ## The sort, turn by turn -/

theorem sortTurn_cons {b : List Byte} {q : SortState} {r : Range} {rest : List Range} (hq : q.stack = r :: rest) :
    sortTurn b q =
      ⟨(partition b q.ord r).ord, pushes (pivot b q.ord r) (partition b q.ord r) r ++ rest⟩ := by
  simp only [sortTurn, hq]

theorem sortRun_nil {b : List Byte} {q : SortState} (turns : Nat) (hq : q.stack = []) : sortRun b turns q = q := by
  cases turns with
  | zero => rfl
  | succ turns => simp only [sortRun, hq]

theorem sortRun_succ_cons {b : List Byte} {q : SortState} {r : Range} {rest : List Range} (turns : Nat)
    (hq : q.stack = r :: rest) : sortRun b (turns + 1) q = sortRun b turns (sortTurn b q) := by
  simp only [sortRun, hq]

/-- What every partition keeps holds after any number of them. -/
theorem sortRun_induction {b : List Byte} {P : SortState → Prop}
    (hturn : ∀ q r rest, q.stack = r :: rest → P q → P (sortTurn b q)) (turns : Nat) {q : SortState} (h : P q) :
    P (sortRun b turns q) := by
  induction turns generalizing q with
  | zero => exact h
  | succ turns ih =>
    cases hq : q.stack with
    | nil => rwa [sortRun_nil _ hq]
    | cons r rest =>
      rw [sortRun_succ_cons _ hq]
      exact ih (hturn q r rest hq h)

/-- R155: the pending range `PARTITION` takes lies inside the array. -/
theorem SortState.Sound.mem_bounds {b : List Byte} {q : SortState} (h : q.Sound b) {r : Range} (hr : r ∈ q.stack) :
    r.lo < r.hi ∧ r.hi < q.ord.length := by
  obtain ⟨hlo, hhi⟩ := h.ranges r hr
  have hlen : q.ord.length = b.length := by simpa using h.rotations.length_eq
  exact ⟨hlo, hlen ▸ hhi⟩

theorem SortState.Sound.partition_within {b : List Byte} {q : SortState} (h : q.Sound b) {r : Range}
    (hr : r ∈ q.stack) : (partition b q.ord r).Within r := by
  obtain ⟨hlo, hhi⟩ := h.mem_bounds hr
  exact (partition_perm_and_ends b hlo hhi).2

/-- What the sort keeps about its work stack (R157 (a), (b)). -/
structure SortState.Pending (b : List Byte) (q : SortState) : Prop extends q.Sound b where
  apart : q.stack.Pairwise Range.Apart
  depth : ∀ r ∈ q.stack, r.d ≤ b.length
  entries : weightOf (fun _ => 1) q.stack ≤ b.length

/-- R153: the work stack starts empty or with the whole range at depth 0. -/
theorem sortInit_stack (b : List Byte) :
    (sortInit b).stack = [] ∨ 2 ≤ b.length ∧ (sortInit b).stack = [⟨0, b.length - 1, 0⟩] := by
  by_cases h : 2 ≤ b.length
  · exact .inr ⟨h, if_pos h⟩
  · exact .inl (if_neg h)

theorem sortInit_pending (b : List Byte) : (sortInit b).Pending b := by
  refine ⟨sortInit_sound b, ?_, ?_, ?_⟩ <;> rcases sortInit_stack b with hq | ⟨h, hq⟩ <;> simp [hq]
  omega

/-- R157 (b): the `=` range goes to the next depth only when the pivot is not the sentinel. -/
theorem depth_le_of_mem_pushes {b : List Byte} {ord : List Nat} {r q : Range} (hd : r.d ≤ b.length)
    (hq : q ∈ pushes (pivot b ord r) (partition b ord r) r) : q.d ≤ b.length := by
  rcases mem_pushes.mp hq with ⟨-, rfl⟩ | ⟨⟨hv, -⟩, rfl⟩ | ⟨-, rfl⟩
  · exact hd
  · exact charAt_nonneg_iff.mp hv
  · exact hd

theorem SortState.Pending.turn {b : List Byte} {q : SortState} {r : Range} {rest : List Range} (h : q.Pending b)
    (hq : q.stack = r :: rest) : (sortTurn b q).Pending b := by
  have hwithin := h.partition_within (r := r) (by simp [hq])
  obtain ⟨happart, hrest⟩ := List.pairwise_cons.mp (hq ▸ h.apart)
  obtain ⟨hdepth, hdepths⟩ := List.forall_mem_cons.mp (hq ▸ h.depth)
  have hentries := h.entries
  rw [hq, weightOf_cons] at hentries
  refine ⟨sortTurn_sound h.toSound, ?_, ?_, ?_⟩ <;> rw [sortTurn_cons hq]
  · exact List.pairwise_append.mpr ⟨pushes_pairwise_apart hwithin, hrest, fun p hp s hs =>
      apart_of_mem_pushes hwithin hp (happart s hs)⟩
  · exact List.forall_mem_append.mpr ⟨fun p hp => depth_le_of_mem_pushes hdepth hp, hdepths⟩
  · have hpushed := entries_pushes_le (pivot b q.ord r) hwithin
    rw [weightOf_append]
    omega

theorem sortRun_pending {b : List Byte} (turns : Nat) : (sortRun b turns (sortInit b)).Pending b :=
  sortRun_induction (fun _ _ _ hq h => h.turn hq) turns (sortInit_pending b)

/-- Settles O26: what the sort keeps about its work stack; `n` entries make at most `n / 2` ranges of two. -/
theorem workStackHoldsDisjointRanges : Obligations.WorkStackHoldsDisjointRanges := by
  intro b turns
  have h := sortRun_pending (b := b) turns
  have htwo := two_mul_length_le_entries fun r hr => (h.ranges r hr).1
  have hentries := h.entries
  exact ⟨by omega, fun r hr => ⟨(h.ranges r hr).1, (h.ranges r hr).2, h.depth r hr⟩, h.apart⟩

/-! ## The end of the sort -/

/-- R157 (c): the weight of the pending ranges, which bounds the partitions still to come. -/
def turnsLeft (b : List Byte) (q : SortState) : Nat := weightOf (fun d => b.length + 1 - d) q.stack

theorem sortInit_turnsLeft (b : List Byte) : turnsLeft b (sortInit b) ≤ b.length * (b.length + 1) := by
  rcases sortInit_stack b with hq | ⟨h, hq⟩
  · simp [turnsLeft, hq]
  · simp [turnsLeft, hq, Nat.sub_add_cancel (Nat.le_of_succ_le h)]

/-- R157 (c): every partition lowers the weight. -/
theorem turnsLeft_sortTurn_lt {b : List Byte} {q : SortState} {r : Range} {rest : List Range} (h : q.Pending b)
    (hq : q.stack = r :: rest) : turnsLeft b (sortTurn b q) < turnsLeft b q := by
  have hr : r ∈ q.stack := by simp [hq]
  have hdepth := h.depth r hr
  have hlt := weightOf_pushes_lt (pivot b q.ord r) (h.partition_within hr) (c := fun d => b.length + 1 - d) (by omega)
  rw [turnsLeft, turnsLeft, sortTurn_cons hq, hq, weightOf_append, weightOf_cons]
  omega

/-- R157 (c): as many turns as the weight empty the work stack. -/
theorem sortRun_stack_eq_nil {b : List Byte} {turns : Nat} {q : SortState} (h : q.Pending b)
    (hturns : turnsLeft b q ≤ turns) : (sortRun b turns q).stack = [] := by
  induction turns generalizing q with
  | zero =>
    cases hq : q.stack with
    | nil => exact hq
    | cons r rest =>
      have := turnsLeft_sortTurn_lt h hq
      omega
  | succ turns ih =>
    cases hq : q.stack with
    | nil => rwa [sortRun_nil _ hq]
    | cons r rest =>
      have := turnsLeft_sortTurn_lt h hq
      rw [sortRun_succ_cons _ hq]
      exact ih (h.turn hq) (by omega)

/-- Settles O27: the weight starts at `n * (n + 1)` at most. -/
theorem sortEndsWithinItsPartitionBound : Obligations.SortEndsWithinItsPartitionBound := fun b =>
  sortRun_stack_eq_nil (sortInit_pending b) (sortInit_turnsLeft b)

end Sys2Proof.Machine
end

section
/-! PROOFS, 41_suffix_ranker.md, the suffix order. Rotations of one pending range agree up to its depth, and rotations that
share no pending range already stand in order; with no range pending the array is a suffix order (R150). -/

namespace Sys2Proof.Machine

open Sys2Proof

/-! ## One partition -/

/-- R155: two entries of the partitioned range end in one pushed range, on two sides of an end of the `=` range, or both
in an `=` range that the sentinel keeps from being pushed. -/
theorem has_pushes_cases {v : Int} {p : Split} {r : Range} {k l : Nat} (hkl : k < l) (hk : r.Has k) (hl : r.Has l) :
    (∃ q ∈ pushes v p r, q.Has k ∧ q.Has l) ∨ (k < p.lt ∧ p.lt ≤ l) ∨ (k ≤ p.gt ∧ p.gt < l) ∨
      (v < 0 ∧ p.lt ≤ k ∧ l ≤ p.gt) := by
  obtain ⟨hk1, -⟩ := hk
  obtain ⟨-, hl2⟩ := hl
  by_cases hbelow : l < p.lt
  · have hmem : ⟨r.lo, p.lt - 1, r.d⟩ ∈ pushes v p r := mem_pushes.mpr (.inl ⟨by omega, rfl⟩)
    exact .inl ⟨_, hmem, ⟨hk1, show k ≤ p.lt - 1 by omega⟩, show r.lo ≤ l by omega, show l ≤ p.lt - 1 by omega⟩
  by_cases habove : p.gt < k
  · have hmem : ⟨p.gt + 1, r.hi, r.d⟩ ∈ pushes v p r := mem_pushes.mpr (.inr (.inr ⟨by omega, rfl⟩))
    exact .inl ⟨_, hmem, ⟨habove, show k ≤ r.hi by omega⟩, show p.gt + 1 ≤ l by omega, hl2⟩
  by_cases hequal : p.lt ≤ k ∧ l ≤ p.gt ∧ 0 ≤ v
  · obtain ⟨hk, hl, hv⟩ := hequal
    have hmem : ⟨p.lt, p.gt, r.d + 1⟩ ∈ pushes v p r := mem_pushes.mpr (.inr (.inl ⟨⟨hv, by omega⟩, rfl⟩))
    exact .inl ⟨_, hmem, ⟨hk, show k ≤ p.gt by omega⟩, show p.lt ≤ l by omega, hl⟩
  · omega

section splits
variable {b : List Byte} {d : Nat} {v : Int} {lo hi : Nat} {p : Split} (h : SplitsAbout b d v lo hi p)
include h

theorem SplitsAbout.le_pivot {k x : Nat} (hx : p.ord[k]? = some x) (hlo : lo ≤ k) (hgt : k ≤ p.gt) :
    charAt b x d ≤ v := by
  rcases Nat.lt_or_ge k p.lt with hlt | hlt
  · exact (h.below k x hx hlo hlt).le
  · exact (h.equal k x hx hlt hgt).le

theorem SplitsAbout.pivot_le {k x : Nat} (hx : p.ord[k]? = some x) (hlt : p.lt ≤ k) (hhi : k ≤ hi) :
    v ≤ charAt b x d := by
  rcases Nat.lt_or_ge p.gt k with hgt | hgt
  · exact (h.above k x hx hgt hhi).le
  · exact (h.equal k x hx hlt hgt).ge

end splits

/-- The rotations of a range of the array agree up to a depth. -/
def AgreeOn (b : List Byte) (ord : List Nat) (r : Range) : Prop :=
  ∀ k l x y, r.Has k → r.Has l → ord[k]? = some x → ord[l]? = some y → AgreeBelow b r.d x y

section partition
variable {b : List Byte} {ord : List Nat} {r : Range} (hr : r.lo < r.hi) (hhi : r.hi < ord.length)

include hhi in
theorem partition_outside {k : Nat} (hk : ¬ r.Has k) : (partition b ord r).ord[k]? = ord[k]? :=
  partition_frame b hhi (by unfold Range.Has at hk; omega)

include hr hhi

/-- R155: an entry of the partitioned range comes from an entry of that range, the array holding each rotation once. -/
theorem partition_inside (hnodup : ord.Nodup) {k x : Nat} (hk : r.Has k) (hx : (partition b ord r).ord[k]? = some x) :
    ∃ j, r.Has j ∧ ord[j]? = some x := by
  have hperm := (partition_perm_and_ends b hr hhi).1
  obtain ⟨j, hj⟩ := List.mem_iff_getElem?.mp (hperm.mem_iff.mp (List.mem_of_getElem? hx))
  refine ⟨j, ?_, hj⟩
  by_contra hout
  rw [← partition_outside hhi hout (b := b)] at hj
  obtain ⟨hklen, -⟩ := List.getElem?_eq_some_iff.mp hx
  have hkj : k = j := (List.getElem?_inj hklen (hperm.nodup_iff.mpr hnodup)).mp (hx.trans hj.symm)
  exact hout (hkj ▸ hk)

theorem agreeOn_partition (hnodup : ord.Nodup) (h : AgreeOn b ord r) : AgreeOn b (partition b ord r).ord r := by
  intro k l x y hk hl hx hy
  obtain ⟨k', hk', hx'⟩ := partition_inside hr hhi hnodup hk hx
  obtain ⟨l', hl', hy'⟩ := partition_inside hr hhi hnodup hl hy
  exact h k' l' x y hk' hl' hx' hy'

/-- R155: the rotations of each pushed range agree up to its depth, those of the `=` range one byte further than before. -/
theorem agreeOn_of_mem_pushes (hnodup : ord.Nodup) (h : AgreeOn b ord r) {q : Range}
    (hq : q ∈ pushes (pivot b ord r) (partition b ord r) r) : AgreeOn b (partition b ord r).ord q := by
  intro k l x y hk hl hx hy
  have hwithin := (partition_perm_and_ends b hr hhi).2
  have hagree : AgreeBelow b r.d x y := agreeOn_partition hr hhi hnodup h k l x y
    (has_of_mem_pushes hwithin hq hk) (has_of_mem_pushes hwithin hq hl) hx hy
  rcases mem_pushes.mp hq with ⟨-, rfl⟩ | ⟨⟨hv, -⟩, rfl⟩ | ⟨-, rfl⟩
  · exact hagree
  · have hsplit := partition_splits b hr hhi
    have hxv := hsplit.equal k x hx hk.1 hk.2
    have hyv := hsplit.equal l y hy hl.1 hl.2
    exact hagree.succ_of_charAt (hxv.trans hyv.symm) (hxv ▸ hv)
  · exact hagree

/-- R155: two rotations of the partitioned range share a pushed range or stand in order. -/
theorem partition_pair (hnodup : ord.Nodup) (h : AgreeOn b ord r) {k l x y : Nat} (hkl : k < l) (hk : r.Has k)
    (hl : r.Has l) (hx : (partition b ord r).ord[k]? = some x) (hy : (partition b ord r).ord[l]? = some y) :
    (∃ q ∈ pushes (pivot b ord r) (partition b ord r) r, q.Has k ∧ q.Has l) ∨ rotKey b x ≤ rotKey b y := by
  have hagree := agreeOn_partition hr hhi hnodup h k l x y hk hl hx hy
  have hsplit := partition_splits b hr hhi
  rcases has_pushes_cases hkl hk hl with hpushed | hside | hside | ⟨hv, hside⟩
  · exact .inl hpushed
  · have hlt : charAt b x r.d < charAt b y r.d :=
      lt_of_lt_of_le (hsplit.below k x hx hk.1 hside.1) (hsplit.pivot_le hy hside.2 hl.2)
    exact .inr (rotKey_lt_of_charAt_lt hagree hlt).le
  · have hlt : charAt b x r.d < charAt b y r.d :=
      lt_of_le_of_lt (hsplit.le_pivot hx hk.1 hside.1) (hsplit.above l y hy hside.2 hl.2)
    exact .inr (rotKey_lt_of_charAt_lt hagree hlt).le
  · have hd : ¬ r.d < b.length := fun hd => absurd (charAt_nonneg_iff.mpr hd) (Int.not_le.mpr hv)
    exact .inr (rotKey_eq_of_agreeBelow hagree (Nat.not_lt.mp hd)).le

end partition

/-! ## The sort -/

/-- What the sort keeps about the order of the rotations: those of a pending range agree up to its depth, and two that share
no pending range stand in order (R150, R155). -/
structure SortState.Sorting (b : List Byte) (q : SortState) : Prop extends q.Pending b where
  agree : ∀ r ∈ q.stack, AgreeOn b q.ord r
  ordered : ∀ k l x y, k < l → q.ord[k]? = some x → q.ord[l]? = some y →
    (∃ r ∈ q.stack, r.Has k ∧ r.Has l) ∨ rotKey b x ≤ rotKey b y

theorem sortInit_sorting (b : List Byte) : (sortInit b).Sorting b := by
  refine ⟨sortInit_pending b, fun r hr k l x y _ _ _ _ t ht => ?_, fun k l x y hkl hx hy => .inl ?_⟩
  · rcases sortInit_stack b with hq | ⟨-, hq⟩
    · simp [hq] at hr
    · obtain rfl : r = ⟨0, b.length - 1, 0⟩ := by simpa [hq] using hr
      exact absurd ht (Nat.not_lt_zero t)
  · have hl : l < b.length := by
      have hlt := (List.getElem?_eq_some_iff.mp hy).1
      simpa [sortInit] using hlt
    rcases sortInit_stack b with hq | ⟨-, hq⟩
    · simp [sortInit, show 2 ≤ b.length by omega] at hq
    · exact ⟨_, hq ▸ List.mem_singleton_self _, ⟨Nat.zero_le k, show k ≤ b.length - 1 by omega⟩, Nat.zero_le l,
        show l ≤ b.length - 1 by omega⟩

theorem SortState.Sound.nodup {b : List Byte} {q : SortState} (h : q.Sound b) : q.ord.Nodup :=
  h.rotations.nodup_iff.mpr List.nodup_range

theorem Range.Apart.not_has {r q : Range} (h : r.Apart q) {k : Nat} (hk : q.Has k) : ¬ r.Has k := by
  unfold Range.Apart at h
  unfold Range.Has at hk ⊢
  omega

section turn
variable {b : List Byte} {q : SortState} {r : Range} {rest : List Range} (h : q.Sorting b) (hq : q.stack = r :: rest)
include h hq

/-- R158: the other pending ranges keep their entries. -/
theorem SortState.Sorting.agreeOn_rest {s : Range} (hs : s ∈ rest) : AgreeOn b (partition b q.ord r).ord s := by
  obtain ⟨-, hhi⟩ := h.mem_bounds (r := r) (by simp [hq])
  have hapart : r.Apart s := (List.pairwise_cons.mp (hq ▸ h.apart)).1 s hs
  intro k l x y hk hl hx hy
  rw [partition_outside hhi (hapart.not_has hk)] at hx
  rw [partition_outside hhi (hapart.not_has hl)] at hy
  exact h.agree s (by simp [hq, hs]) k l x y hk hl hx hy

/-- Where an entry after the partition stood before it. -/
theorem SortState.Sorting.entry_before {k x : Nat} (hx : (partition b q.ord r).ord[k]? = some x) :
    ∃ j, q.ord[j]? = some x ∧ (r.Has k ∧ r.Has j ∨ ¬ r.Has k ∧ j = k) := by
  obtain ⟨hlo, hhi⟩ := h.mem_bounds (r := r) (by simp [hq])
  by_cases hk : r.Has k
  · obtain ⟨j, hj, hjx⟩ := partition_inside hlo hhi h.nodup hk hx
    exact ⟨j, hjx, .inl ⟨hk, hj⟩⟩
  · exact ⟨k, partition_outside hhi hk ▸ hx, .inr ⟨hk, rfl⟩⟩

/-- Two entries not both of the partitioned range share a pending range, or stand in order, as before. -/
theorem SortState.Sorting.pair_of_not_has {k l x y : Nat} (hkl : k < l) (hout : ¬ (r.Has k ∧ r.Has l))
    (hx : (partition b q.ord r).ord[k]? = some x) (hy : (partition b q.ord r).ord[l]? = some y) :
    (∃ s ∈ rest, s.Has k ∧ s.Has l) ∨ rotKey b x ≤ rotKey b y := by
  obtain ⟨k', hx', hk'⟩ := h.entry_before hq hx
  obtain ⟨l', hy', hl'⟩ := h.entry_before hq hy
  have hkl' : k' < l' := by
    unfold Range.Has at hk' hl' hout
    omega
  refine (h.ordered k' l' x y hkl' hx' hy').imp_left fun ⟨s, hs, hsk, hsl⟩ => ?_
  rcases List.mem_cons.mp (hq ▸ hs) with rfl | hs
  · exact absurd ⟨(hk'.resolve_right fun ⟨hk, hkk⟩ => hk (hkk ▸ hsk)).1,
      (hl'.resolve_right fun ⟨hl, hll⟩ => hl (hll ▸ hsl)).1⟩ hout
  · have hapart : r.Apart s := (List.pairwise_cons.mp (hq ▸ h.apart)).1 s hs
    obtain ⟨-, rfl⟩ := hk'.resolve_left fun hk => hapart.not_has hsk hk.2
    obtain ⟨-, rfl⟩ := hl'.resolve_left fun hl => hapart.not_has hsl hl.2
    exact ⟨s, hs, hsk, hsl⟩

theorem SortState.Sorting.turn : (sortTurn b q).Sorting b := by
  obtain ⟨hlo, hhi⟩ := h.mem_bounds (r := r) (by simp [hq])
  have hagree : AgreeOn b q.ord r := h.agree r (by simp [hq])
  refine ⟨h.toPending.turn hq, ?_, ?_⟩ <;> rw [sortTurn_cons hq]
  · exact List.forall_mem_append.mpr ⟨fun _ => agreeOn_of_mem_pushes hlo hhi h.nodup hagree, fun _ => h.agreeOn_rest hq⟩
  · intro k l x y hkl hx hy
    by_cases hin : r.Has k ∧ r.Has l
    · exact (partition_pair hlo hhi h.nodup hagree hkl hin.1 hin.2 hx hy).imp_left fun ⟨s, hs, hkl⟩ =>
        ⟨s, List.mem_append_left rest hs, hkl⟩
    · exact (h.pair_of_not_has hq hkl hin hx hy).imp_left fun ⟨s, hs, hkl⟩ => ⟨s, List.mem_append_right _ hs, hkl⟩

end turn

/-- R150: whatever the block, the array the sort leaves is a suffix order. -/
theorem suffixOrder_isSuffixOrder (b : List Byte) : IsSuffixOrder b (suffixOrder b) := by
  have h : (sortRun b (b.length * (b.length + 1)) (sortInit b)).Sorting b :=
    sortRun_induction (fun _ _ _ hq h => h.turn hq) _ (sortInit_sorting b)
  refine isSuffixOrder_iff.mpr ⟨suffixOrder_perm_range b, List.pairwise_iff_getElem.mpr fun k l hk hl hkl => ?_⟩
  have hnone := sortEndsWithinItsPartitionBound b
  rcases h.ordered k l _ _ hkl (List.getElem?_eq_getElem hk) (List.getElem?_eq_getElem hl) with ⟨r, hr, -⟩ | hle
  · simp [hnone] at hr
  · exact hle

/-- Settles O34: two arrangements of the rotations in non-decreasing order of their keys are the same when the keys are
all different. -/
theorem nonPeriodicBlocksHaveOneSuffixOrder : Obligations.NonPeriodicBlocksHaveOneSuffixOrder := by
  intro b order _ hperiod horder
  obtain ⟨hperm, hsorted⟩ := isSuffixOrder_iff.mp horder
  obtain ⟨hperm', hsorted'⟩ := isSuffixOrder_iff.mp (suffixOrder_isSuffixOrder b)
  refine List.Perm.eq_of_pairwise (fun i j hi hj hij hji => ?_) hsorted hsorted' (hperm.trans hperm'.symm)
  have hi' : i < b.length := List.mem_range.mp (hperm.mem_iff.mp hi)
  have hj' : j < b.length := List.mem_range.mp (hperm'.mem_iff.mp hj)
  by_contra hne
  exact hperiod ⟨i, j, hi', hj', hne, rotEq_iff_rotKey_eq.mpr (le_antisymm hij hji)⟩

end Sys2Proof.Machine
end

section
/-! PROOFS, 41_suffix_ranker.md, the commands. What each of the five commands answers on a loaded block, and what the sort
leaves in `ORD`. -/

namespace Sys2Proof.Machine

open Sys2Proof

/-! ## The block check -/

/-- R152: the five commands that make `BLKCHK` first raise what it raises. -/
theorem exec_of_blkchk_raises {s : State} {c : Cause} (h : blkchk s = some c) {i : Instr}
    (hi : i ∈ [Instr.srkSort, .srkChr, .srkCmp, .srkCmpr, .bwtFwd]) :
    exec i s = .next (afterError s (opcode i) c.code) := by
  have hchr : chrCheck s = some c := by simp only [chrCheck, h]
  have hcmp : cmpCheck s = some c := by simp only [cmpCheck, h]
  simp only [List.mem_cons, List.not_mem_nil, or_false] at hi
  rcases hi with rfl | rfl | rfl | rfl | rfl <;>
    simp only [exec, execSrkSort, execSrkChr, execSrkCmp, execSrkCmpr, execBwtFwd, h, hchr, hcmp, raise_eq_afterError]

/-- Settles O22: the two causes of `BLKCHK` in its order, and the bounds of a length that passes. -/
theorem blockCheckRaisesLengthThenEmpty : Obligations.BlockCheckRaisesLengthThenEmpty := by
  refine fun s => ⟨fun i op hi => ?_, fun hinv hlen hn => ?_⟩
  · have hop : i ∈ [Instr.srkSort, .srkChr, .srkCmp, .srkCmpr, .bwtFwd] ∧ opcode i = op := by
      simp only [List.mem_cons, List.not_mem_nil, or_false, Prod.mk.injEq] at hi
      rcases hi with ⟨rfl, rfl⟩ | ⟨rfl, rfl⟩ | ⟨rfl, rfl⟩ | ⟨rfl, rfl⟩ | ⟨rfl, rfl⟩ <;> exact ⟨by decide, rfl⟩
    obtain ⟨hmem, rfl⟩ := hop
    exact ⟨fun hlen => exec_of_blkchk_raises (blkchk_length hlen) hmem,
      fun hlen h0 => exec_of_blkchk_raises (blkchk_empty hlen h0) hmem⟩
  · obtain ⟨-, -, hpos⟩ := blkchk_block_length (blkchk_eq_none.mpr ⟨hlen, hn⟩)
    exact ⟨hpos, hinv.declared⟩

/-! ## Reading the order -/

theorem exec_srkRdord_refused {s : State} {k : Word} (h : ordRead k s = none) :
    exec (.srkRdord k) s = .next (afterError s 0x21 0x16) := by
  simp only [exec, execSrkRdord, h, raise_eq_afterError, opcode, Cause.code]

theorem exec_srkRdord_some {s : State} {k v : Word} (h : ordRead k s = some v) :
    exec (.srkRdord k) s = .next (afterOk s v) := by
  simp only [exec, execSrkRdord, h, succeed_eq_afterOk]

/-- R27, R39: a valid order has an element for each index of the block. -/
theorem Inv.ord_length {s : State} (h : Inv s) (hv : s.ordv = true) : s.ord.length = s.n.toNat := by
  obtain ⟨-, hlen, hord⟩ := h.order hv
  rw [hord, List.length_map, suffixOrder_length, blk_eq_ibuf hlen, hlen]

/-- Settles O29: the two refusals of the read, and the element the invariant puts there. -/
theorem srkRdordReadsTheOrder : Obligations.SrkRdordReadsTheOrder := by
  refine fun s k hinv => ⟨fun hstale => ?_, fun hk => ?_, fun hv hk => ?_⟩
  · exact exec_srkRdord_refused (if_pos hstale)
  · refine exec_srkRdord_refused (Option.eq_none_iff_forall_ne_some.mpr fun v hv => ?_)
    obtain ⟨-, hlt, -⟩ := ordRead_eq_some.mp hv
    exact absurd hlt (BitVec.not_lt.mpr hk)
  · have hlt : k.toNat < s.ord.length := hinv.ord_length hv ▸ hk
    have hread := List.getElem?_eq_getElem hlt
    exact ⟨_, hread, exec_srkRdord_some (ordRead_eq_some.mpr ⟨hv, hk, hread⟩)⟩

/-! ## The comparator and the sort on a loaded block -/

section loaded
variable {s : State} (hlen : s.ibuf.length = s.n.toNat) (hn : s.n ≠ 0)
include hlen hn

theorem chrCheck_loaded : chrCheck s = if s.n ≤ s.a then some .icOperand else none := by
  simp only [chrCheck, blkchk_eq_none.mpr ⟨hlen, hn⟩]

theorem cmpCheck_loaded : cmpCheck s = if s.n ≤ s.a ∨ s.n ≤ s.b then some .icOperand else none := by
  simp only [cmpCheck, blkchk_eq_none.mpr ⟨hlen, hn⟩]

theorem exec_srkChr_refused (ha : s.n ≤ s.a) : exec .srkChr s = .next (afterError s 0x22 0x17) := by
  simp only [exec, execSrkChr, chrCheck_loaded hlen hn, if_pos ha, raise_eq_afterError, opcode, Cause.code]

theorem exec_srkChr_loaded (ha : s.a < s.n) :
    exec .srkChr s = .next (afterOk s (charWord (charAt s.ibuf s.a.toNat s.d.toNat))) := by
  simp only [exec, execSrkChr, chrCheck_loaded hlen hn, if_neg (BitVec.not_le.mpr ha), blk_eq_ibuf hlen,
    succeed_eq_afterOk]

theorem exec_srkCmp_refused (hab : s.n ≤ s.a ∨ s.n ≤ s.b) : exec .srkCmp s = .next (afterError s 0x23 0x17) := by
  simp only [exec, execSrkCmp, cmpCheck_loaded hlen hn, if_pos hab, raise_eq_afterError, opcode, Cause.code]

theorem exec_srkCmpr_refused (hab : s.n ≤ s.a ∨ s.n ≤ s.b) : exec .srkCmpr s = .next (afterError s 0x24 0x17) := by
  simp only [exec, execSrkCmpr, cmpCheck_loaded hlen hn, if_pos hab, raise_eq_afterError, opcode, Cause.code]

theorem exec_srkSort_loaded :
    exec .srkSort s = .next (afterOk { s with ord := (suffixOrder s.ibuf).map word, ordv := true } 0) := by
  simp only [exec, execSrkSort, blkchk_eq_none.mpr ⟨hlen, hn⟩, succeed_eq_afterOk, sortBlock, setOrdv,
    blk_eq_ibuf hlen]

theorem exec_bwtFwd_loaded :
    exec .bwtFwd s = .next (afterOk
      { s with
        ord := (suffixOrder s.ibuf).map word
        ordv := true
        fri := word (firstRowIndex (suffixOrder s.ibuf))
        obuf := serialise (word (firstRowIndex (suffixOrder s.ibuf))) (lastColumn s.ibuf (suffixOrder s.ibuf))
        orp := 0 } 0) := by
  simp only [exec, execBwtFwd, blkchk_eq_none.mpr ⟨hlen, hn⟩, succeed_eq_afterOk, setOutput, sortBlock, setOrdv,
    blk_eq_ibuf hlen]

section operands
variable (ha : s.a < s.n) (hb : s.b < s.n)
include ha hb

theorem cmpCheck_passes : cmpCheck s = none := by
  rw [cmpCheck_loaded hlen hn, if_neg]
  rintro (h | h)
  · exact BitVec.not_le.mpr ha h
  · exact BitVec.not_le.mpr hb h

theorem exec_srkCmp_loaded :
    exec .srkCmp s = .next (afterOk s (threeWay (compareAt s.ibuf s.a.toNat s.b.toNat s.d.toNat))) := by
  simp only [exec, execSrkCmp, cmpCheck_passes hlen hn ha hb, blk_eq_ibuf hlen, succeed_eq_afterOk]

/-- R163: `SRK.CMPR` compares the keys of the two rotations. -/
theorem exec_srkCmpr_loaded :
    exec .srkCmpr s =
      .next (afterOk s (threeWay (compare (rotKey s.ibuf s.a.toNat) (rotKey s.ibuf s.b.toNat)))) := by
  simp only [exec, execSrkCmpr, cmpCheck_passes hlen hn ha hb, blk_eq_ibuf hlen, compareRotations_eq_compare,
    succeed_eq_afterOk]

end operands

end loaded

/-! ## The answers -/

/-- R97: a byte as a character. -/
theorem charWord_byte (x : Byte) : charWord (x.toNat : Int) = x.setWidth 32 := by
  rw [charWord, if_pos (Int.natCast_nonneg _), Int.toNat_natCast]
  exact BitVec.eq_of_toNat_eq (by simp)

/-- Settles O30: the character at the depth is the sentinel from `n` on and the byte of the rotation before. -/
theorem srkChrReturnsTheCharacter : Obligations.SrkChrReturnsTheCharacter := by
  intro s hlen hn
  refine ⟨exec_srkChr_refused hlen hn, fun ha hd => ?_, fun ha hd => ?_⟩
  · have hd' : s.ibuf.length ≤ s.d.toNat := hlen ▸ hd
    rw [exec_srkChr_loaded hlen hn ha, charAt_of_length_le hd']
    rfl
  · have hd' : s.d.toNat < s.ibuf.length := hlen ▸ hd
    refine ⟨rotByte s.ibuf s.a.toNat s.d.toNat, hlen ▸ getElem?_rotation hd' _, ?_⟩
    rw [exec_srkChr_loaded hlen hn ha, charAt_of_lt hd', charWord_byte]

/-- R151, R162: the comparison of two characters that are bytes. -/
theorem threeWay_compareAt {b : List Byte} {d : Nat} (hd : d < b.length) (i j : Nat) :
    threeWay (compareAt b i j d) =
      if (rotByte b i d).toNat < (rotByte b j d).toNat then 0xFFFFFFFF
      else if (rotByte b j d).toNat < (rotByte b i d).toNat then 0x00000001 else 0x00000000 := by
  rw [compareAt, charAt_of_lt hd, charAt_of_lt hd]
  split
  · next hlt => rw [compare_lt_iff_lt.mpr (Nat.cast_lt.mpr hlt)]; rfl
  · split
    · next hgt => rw [compare_gt_iff_gt.mpr (Nat.cast_lt.mpr hgt)]; rfl
    · next hge hle => rw [compare_eq_iff_eq.mpr (Nat.cast_inj.mpr (by omega))]; rfl

/-- Settles O31: beyond depth `n` both characters are the sentinel, before it both are bytes. -/
theorem srkCmpComparesAtTheDepth : Obligations.SrkCmpComparesAtTheDepth := by
  intro s hlen hn
  refine ⟨exec_srkCmp_refused hlen hn, fun ha hb hd => ?_, fun ha hb hd => ?_⟩
  · have hd' : s.ibuf.length ≤ s.d.toNat := hlen ▸ hd
    rw [exec_srkCmp_loaded hlen hn ha hb, compareAt, charAt_of_length_le hd', charAt_of_length_le hd']
    rfl
  · have hd' : s.d.toNat < s.ibuf.length := hlen ▸ hd
    refine ⟨rotByte s.ibuf s.a.toNat s.d.toNat, rotByte s.ibuf s.b.toNat s.d.toNat, hlen ▸ getElem?_rotation hd' _,
      hlen ▸ getElem?_rotation hd' _, ?_⟩
    rw [exec_srkCmp_loaded hlen hn ha hb, threeWay_compareAt hd']

/-- Settles O32: the keys compare in one of three ways, each the relation of the two rotations. -/
theorem srkCmprComparesTheRotations : Obligations.SrkCmprComparesTheRotations := by
  intro s hlen hn
  refine ⟨exec_srkCmpr_refused hlen hn, fun ha hb => ⟨_, exec_srkCmpr_loaded hlen hn ha hb, ?_⟩⟩
  rw [rotLt_iff_rotKey_lt, rotLt_iff_rotKey_lt, rotEq_iff_rotKey_eq]
  cases hc : compare (rotKey s.ibuf s.a.toNat) (rotKey s.ibuf s.b.toNat) with
  | lt => exact .inl ⟨rfl, compare_lt_iff_lt.mp hc⟩
  | gt => exact .inr (.inl ⟨rfl, compare_gt_iff_gt.mp hc⟩)
  | eq => exact .inr (.inr ⟨rfl, compare_eq_iff_eq.mp hc⟩)

/-! ## What the sort leaves in `ORD` -/

/-- Settles O23: `SRK.SORT` on a loaded block. -/
theorem srkSortStoresTheSuffixOrder : Obligations.SrkSortStoresTheSuffixOrder := fun _ hlen hn =>
  exec_srkSort_loaded hlen hn

/-- The elements of `ORD` are the rotation numbers: each fits a word when the length does. -/
theorem map_toNat_map_word_suffixOrder {b : List Byte} (hb : b.length < 2 ^ 32) :
    ((suffixOrder b).map word).map BitVec.toNat = suffixOrder b := by
  rw [List.map_map]
  refine (List.map_congr_left fun i hi => ?_).trans (List.map_id _)
  have hib : i < b.length := List.mem_range.mp ((suffixOrder_perm_range b).mem_iff.mp hi)
  exact word_toNat_of_lt (Nat.lt_trans hib hb)

/-- Settles O24: what is stored is the array of the sort, a suffix order of the block. -/
theorem srkSortLeavesASuffixOrder : Obligations.SrkSortLeavesASuffixOrder := by
  intro s hlen hn
  have hb : s.ibuf.length < 2 ^ 32 := hlen ▸ s.n.isLt
  exact ⟨_, _, exec_srkSort_loaded hlen hn, suffixOrder_isSuffixOrder s.ibuf, map_toNat_map_word_suffixOrder hb, rfl, rfl,
    rfl⟩

/-- R153, R182: both sorting commands leave the array of the sort in `ORD` and keep the block. -/
theorem exec_sorts {s : State} {i : Instr} (hi : i = .srkSort ∨ i = .bwtFwd) (hlen : s.ibuf.length = s.n.toNat)
    (hn : s.n ≠ 0) :
    ∃ t, exec i s = .next t ∧ t.ord = (suffixOrder s.ibuf).map word ∧ t.ibuf = s.ibuf ∧ t.n = s.n := by
  rcases hi with rfl | rfl
  · exact ⟨_, exec_srkSort_loaded hlen hn, rfl, rfl, rfl⟩
  · exact ⟨_, exec_bwtFwd_loaded hlen hn, rfl, rfl, rfl⟩

/-- R164 (a): each index of the block occurs once in `ORD`. -/
theorem count_map_word_suffixOrder {b : List Byte} (hb : b.length < 2 ^ 32) {v : Word} (hv : v.toNat < b.length) :
    ((suffixOrder b).map word).count v = 1 := by
  rw [← List.count_map_of_injective _ BitVec.toNat BitVec.toNat_injective, map_toNat_map_word_suffixOrder hb,
    (suffixOrder_perm_range b).count_eq]
  exact List.count_eq_one_of_mem List.nodup_range (List.mem_range.mpr hv)

/-- R164 (b): neighbours in `ORD` are rotations of the block, in order. -/
theorem map_word_suffixOrder_neighbours {b : List Byte} (hb : b.length < 2 ^ 32) {k : Nat} {x y : Word}
    (hx : ((suffixOrder b).map word)[k]? = some x) (hy : ((suffixOrder b).map word)[k + 1]? = some y) :
    x.toNat < b.length ∧ y.toNat < b.length ∧ RotLe b x.toNat y.toNat := by
  obtain ⟨hperm, hneighbours⟩ := suffixOrder_isSuffixOrder b
  have hread {j : Nat} {z : Word} (hz : ((suffixOrder b).map word)[j]? = some z) : (suffixOrder b)[j]? = some z.toNat := by
    rw [← map_toNat_map_word_suffixOrder hb, List.getElem?_map, hz, Option.map_some]
  have hlt {j i : Nat} (hi : (suffixOrder b)[j]? = some i) : i < b.length :=
    List.mem_range.mp (hperm.mem_iff.mp (List.mem_of_getElem? hi))
  exact ⟨hlt (hread hx), hlt (hread hy), hneighbours k _ _ (hread hx) (hread hy)⟩

/-- R163: on rotations in order `SRK.CMPR` does not answer greater. -/
theorem exec_srkCmpr_of_rotLe {s : State} (hlen : s.ibuf.length = s.n.toNat) (hn : s.n ≠ 0) (ha : s.a < s.n)
    (hb : s.b < s.n) (hle : RotLe s.ibuf s.a.toNat s.b.toNat) :
    exec .srkCmpr s = .next (afterOk s 0xFFFFFFFF) ∨ exec .srkCmpr s = .next (afterOk s 0) := by
  rw [exec_srkCmpr_loaded hlen hn ha hb]
  rcases hle with hlt | heq
  · rw [compare_lt_iff_lt.mpr (rotLt_iff_rotKey_lt.mp hlt)]
    exact .inl rfl
  · rw [compare_eq_iff_eq.mpr (rotEq_iff_rotKey_eq.mp heq)]
    exact .inr rfl

/-- Settles O33: both commands leave the array of the sort, a suffix order, and `SRK.CMPR` compares its neighbours. -/
theorem adjacentRotationsCompareInOrder : Obligations.AdjacentRotationsCompareInOrder := by
  intro s i hi hlen hn
  have hb : s.ibuf.length < 2 ^ 32 := hlen ▸ s.n.isLt
  obtain ⟨t, ht, hord, hibuf, htn⟩ := exec_sorts hi hlen hn
  refine ⟨t, ht, ?_, fun v hv => ?_, fun k x y hx hy => ?_⟩
  · rw [hord, List.length_map, suffixOrder_length, hlen]
  · rw [hord]
    exact count_map_word_suffixOrder hb (hlen ▸ hv)
  · rw [hord] at hx hy
    obtain ⟨hxn, hyn, hle⟩ := map_word_suffixOrder_neighbours hb hx hy
    rw [hlen, ← htn] at hxn hyn
    exact exec_srkCmpr_of_rotLe (s := { t with a := x, b := y }) (by rw [hibuf, htn, hlen]) (htn ▸ hn) hxn hyn
      (hibuf ▸ hle)

/-- Settles O28: the sort run on each of the six blocks. -/
theorem suffixOrdersOfTheSpecsExamples : Obligations.SuffixOrdersOfTheSpecsExamples := by
  refine ⟨?_, ?_, ?_, ?_, ?_, ?_⟩ <;> decide

end Sys2Proof.Machine
end

section
/-! PROOFS, 42_bwt_codec.md, places. Occurrence `p` of byte `c` in the last column has one place in the sorted column:
after all smaller bytes and after the earlier occurrences of `c`. Places are ordered as the pairs byte, position. -/

namespace Sys2Proof.Machine

open Sys2Proof

/-! ## Where the bytes of each value begin and end -/

theorem startOf_add_count (L : List Byte) (c : Byte) :
    startOf L c + L.count c = L.countP fun x => decide (x.toNat ≤ c.toNat) := by
  induction L with
  | nil => rfl
  | cons x L ih =>
    unfold startOf at ih ⊢
    rw [List.countP_cons, List.count_cons, List.countP_cons, ← ih]
    rcases Nat.lt_trichotomy x.toNat c.toNat with h | h | h
    · have hne : x ≠ c := fun hxc => Nat.ne_of_lt h (congrArg BitVec.toNat hxc)
      simp [h, Nat.le_of_lt h, hne]
      omega
    · simp [BitVec.toNat_inj.mp h]
      omega
    · have hne : x ≠ c := fun hxc => Nat.ne_of_gt h (congrArg BitVec.toNat hxc)
      simp [Nat.not_lt.mpr (Nat.le_of_lt h), Nat.not_le.mpr h, hne]

/-- R187: the bytes `c` end where the next larger value begins, or before. -/
theorem startOf_add_count_le_startOf {L : List Byte} {c d : Byte} (hcd : c.toNat < d.toNat) :
    startOf L c + L.count c ≤ startOf L d := by
  rw [startOf_add_count]
  exact List.countP_mono_left fun x _ hx => by simp only [decide_eq_true_eq] at hx ⊢; omega

theorem startOf_add_count_le_length (L : List Byte) (c : Byte) : startOf L c + L.count c ≤ L.length := by
  rw [startOf_add_count]
  exact List.countP_le_length

/-- The byte at `p` is one more occurrence before every later position. -/
theorem count_take_lt {L : List Byte} {c : Byte} {p q : Nat} (hp : L[p]? = some c) (hpq : p < q) :
    (L.take p).count c < (L.take q).count c := by
  calc (L.take p).count c < (L.take (p + 1)).count c := by simp [List.take_add_one, hp]
    _ ≤ (L.take q).count c := (List.take_prefix_take_left hpq).sublist.count_le c

/-! ## The place of an occurrence -/

/-- Where the counting sort puts the byte `c` that stands at position `p` (42_bwt_codec.md R188: `start(c) + r`). -/
def placeOf (L : List Byte) (c : Byte) (p : Nat) : Nat := startOf L c + (L.take p).count c

section places
variable {L : List Byte} {c d : Byte} {p q : Nat} (hp : L[p]? = some c)
include hp

/-- Past position `p` one more occurrence of its byte has been passed. -/
theorem placeOf_succ (d : Byte) : placeOf L d (p + 1) = placeOf L d p + if c = d then 1 else 0 := by
  simp [placeOf, List.take_add_one, hp, List.count_singleton, Nat.add_assoc]

theorem placeOf_lt_end : placeOf L c p < startOf L c + L.count c := by
  have hlt := count_take_lt hp (List.getElem?_eq_some_iff.mp hp).1
  rw [List.take_length] at hlt
  exact Nat.add_lt_add_left hlt _

theorem placeOf_lt_length : placeOf L c p < L.length :=
  Nat.lt_of_lt_of_le (placeOf_lt_end hp) (startOf_add_count_le_length L c)

/-- R187: smaller bytes stand before larger ones. -/
theorem placeOf_lt_of_byte_lt (hcd : c.toNat < d.toNat) : placeOf L c p < placeOf L d q :=
  calc placeOf L c p < startOf L c + L.count c := placeOf_lt_end hp
    _ ≤ startOf L d := startOf_add_count_le_startOf hcd
    _ ≤ placeOf L d q := Nat.le_add_right ..

/-- R187, stability: equal bytes keep the order of their positions. -/
theorem placeOf_lt_of_position_lt (hpq : p < q) : placeOf L c p < placeOf L c q :=
  Nat.add_lt_add_left (count_take_lt hp hpq) _

end places

section twoPlaces
variable {L : List Byte} {c d : Byte} {p q : Nat} (hp : L[p]? = some c) (hq : L[q]? = some d)
include hp hq

/-- Places are ordered as the pairs of byte and position. -/
theorem placeOf_lt_iff : placeOf L c p < placeOf L d q ↔ c.toNat < d.toNat ∨ c = d ∧ p < q := by
  refine ⟨fun h => ?_, ?_⟩
  · rcases Nat.lt_trichotomy c.toNat d.toNat with hlt | heq | hgt
    · exact .inl hlt
    · obtain rfl := BitVec.toNat_inj.mp heq
      refine .inr ⟨rfl, Nat.lt_of_not_le fun hqp => absurd h (Nat.not_lt.mpr ?_)⟩
      rcases Nat.eq_or_lt_of_le hqp with rfl | hlt
      · exact Nat.le_refl _
      · exact (placeOf_lt_of_position_lt hq hlt).le
    · exact absurd (placeOf_lt_of_byte_lt hq hgt) (Nat.lt_asymm h)
  · rintro (hlt | ⟨rfl, hlt⟩)
    · exact placeOf_lt_of_byte_lt hp hlt
    · exact placeOf_lt_of_position_lt hp hlt

/-- Different occurrences have different places. -/
theorem placeOf_inj (h : placeOf L c p = placeOf L d q) : p = q := by
  have hnot := mt (placeOf_lt_iff hp hq).mpr (Nat.not_lt.mpr h.ge)
  have hnot' := mt (placeOf_lt_iff hq hp).mpr (Nat.not_lt.mpr h.le)
  obtain rfl : c = d := BitVec.eq_of_toNat_eq (by omega)
  simp only [true_and, not_or] at hnot hnot'
  omega

end twoPlaces

end Sys2Proof.Machine
end

section
/-! PROOFS, 42_bwt_codec.md, the offset table. The counters of R189 start at `start(c)`; each turn of its last loop
writes one byte and its position at their place. So entry `i` of the two arrays is that of the occurrence placed at
`i`. -/

namespace Sys2Proof.Machine

open Sys2Proof

/-! ## The counters -/

theorem getD_set {α : Type} (l : List α) {i : Nat} (j : Nat) (v d : α) (hi : i < l.length) :
    (l.set i v).getD j d = if i = j then v else l.getD j d := by
  simp only [List.getD_eq_getElem?_getD, List.getElem?_set, if_pos hi]
  split <;> rfl

/-- One turn of the second loop of R189. -/
def countByte (cnt : List Nat) (c : Byte) : List Nat := cnt.set (c.toNat + 1) (cnt.getD (c.toNat + 1) 0 + 1)

theorem countOccurrences_eq_foldl (L : List Byte) : countOccurrences L = L.foldl countByte (List.replicate 257 0) := rfl

/-- One turn of the third loop of R189. -/
def addPrevious (cnt : List Nat) (c : Nat) : List Nat := cnt.set (c + 1) (cnt.getD (c + 1) 0 + cnt.getD c 0)

theorem accumulate_eq_foldl (cnt : List Nat) : accumulate cnt = (List.range 256).foldl addPrevious cnt := rfl

theorem length_foldl_countByte (L : List Byte) (cnt : List Nat) : (L.foldl countByte cnt).length = cnt.length := by
  induction L generalizing cnt with
  | nil => rfl
  | cons x L ih => rw [List.foldl_cons, ih, countByte, List.length_set]

theorem length_foldl_addPrevious (l cnt : List Nat) : (l.foldl addPrevious cnt).length = cnt.length := by
  induction l generalizing cnt with
  | nil => rfl
  | cons x l ih => rw [List.foldl_cons, ih, addPrevious, List.length_set]

theorem length_countOccurrences (L : List Byte) : (countOccurrences L).length = 257 := by
  rw [countOccurrences_eq_foldl, length_foldl_countByte, List.length_replicate]

/-- R189, second loop: each byte `c` raises the counter at `c + 1`. -/
theorem getD_foldl_countByte (L : List Byte) {cnt : List Nat} (hcnt : cnt.length = 257) (j : Nat) :
    (L.foldl countByte cnt).getD j 0 = cnt.getD j 0 + L.countP fun x => decide (x.toNat + 1 = j) := by
  induction L generalizing cnt with
  | nil => rfl
  | cons x L ih =>
    rw [List.foldl_cons, ih (by rw [countByte, List.length_set, hcnt]), countByte, getD_set _ _ _ _ (by omega),
      List.countP_cons]
    split
    · next hx => subst hx; simp; omega
    · next hx => simp [hx]

/-- A byte below `m + 1` is `m` or below `m`. -/
theorem countP_lt_succ (L : List Byte) (m : Nat) :
    (L.countP fun x => decide (x.toNat < m + 1)) =
      (L.countP fun x => decide (x.toNat + 1 = m + 1)) + L.countP fun x => decide (x.toNat < m) := by
  induction L with
  | nil => rfl
  | cons x L ih =>
    simp only [List.countP_cons, ih, decide_eq_true_eq]
    split <;> split <;> split <;> omega

/-- R189, third loop, after its turns for `c` below `m`: the counters up to `m` hold the number of smaller bytes. -/
theorem getD_foldl_addPrevious {L : List Byte} {cnt : List Nat} (hcnt : cnt.length = 257)
    (hocc : ∀ j, cnt.getD j 0 = L.countP fun x => decide (x.toNat + 1 = j)) {m : Nat} (hm : m ≤ 256) (j : Nat) :
    ((List.range m).foldl addPrevious cnt).getD j 0 =
      if j ≤ m then L.countP fun x => decide (x.toNat < j) else L.countP fun x => decide (x.toNat + 1 = j) := by
  induction m generalizing j with
  | zero =>
    rw [List.range_zero, List.foldl_nil, hocc]
    split
    · next hj => obtain rfl := Nat.le_zero.mp hj; simp
    · rfl
  | succ m ih =>
    have hlen := length_foldl_addPrevious (List.range m) cnt
    have ih' := ih (by omega)
    rw [List.range_succ, List.foldl_concat, addPrevious, getD_set _ _ _ _ (by omega), ih' (m + 1), ih' m, ih' j,
      if_neg (Nat.not_succ_le_self m), if_pos (Nat.le_refl m)]
    rcases Nat.lt_trichotomy j (m + 1) with h | rfl | h
    · rw [if_neg (by omega), if_pos (by omega), if_pos (by omega)]
    · rw [if_pos rfl, if_pos (Nat.le_refl _), countP_lt_succ]
    · rw [if_neg (by omega), if_neg (by omega), if_neg (by omega)]

/-- R189: the counters the last loop starts with. -/
def startCounters (L : List Byte) : List Nat := accumulate (countOccurrences L)

theorem length_startCounters (L : List Byte) : (startCounters L).length = 257 := by
  rw [startCounters, accumulate_eq_foldl, length_foldl_addPrevious, length_countOccurrences]

/-- R189: "now `CNT[c] = start(c)`". -/
theorem getD_startCounters (L : List Byte) (c : Byte) : (startCounters L).getD c.toNat 0 = startOf L c := by
  have hocc (j : Nat) : (countOccurrences L).getD j 0 = L.countP fun x => decide (x.toNat + 1 = j) := by
    rw [countOccurrences_eq_foldl, getD_foldl_countByte L List.length_replicate, List.getD_eq_getElem?_getD,
      List.getElem?_getD_replicate_default_eq, Nat.zero_add]
  rw [startCounters, accumulate_eq_foldl, getD_foldl_addPrevious (length_countOccurrences L) hocc (Nat.le_refl _),
    if_pos (Nat.le_of_lt c.isLt), startOf]

/-! ## The placement -/

/-- The working arrays before the last loop of R189. -/
def emptyArrays (L : List Byte) : InverseArrays :=
  ⟨List.replicate L.length 0, List.replicate L.length 0, startCounters L⟩

theorem emptyArrays_cnt (L : List Byte) : (emptyArrays L).cnt = startCounters L := by dsimp only [emptyArrays]

/-- What the last loop of R189 keeps: with the first `k` positions done, the counter of each byte is the place of its
next occurrence, and every byte done stands with its position at its place. -/
structure PlacedBelow (L : List Byte) (k : Nat) (w : InverseArrays) : Prop where
  length_scol : w.scol.length = L.length
  length_nxt : w.nxt.length = L.length
  length_cnt : w.cnt.length = 257
  counters : ∀ c : Byte, w.cnt.getD c.toNat 0 = placeOf L c k
  placed : ∀ p c, p < k → L[p]? = some c → w.scol[placeOf L c p]? = some c ∧ w.nxt[placeOf L c p]? = some p

theorem emptyArrays_placedBelow (L : List Byte) : PlacedBelow L 0 (emptyArrays L) where
  length_scol := List.length_replicate
  length_nxt := List.length_replicate
  length_cnt := by rw [emptyArrays_cnt, length_startCounters]
  counters c := by simp [emptyArrays_cnt, -List.getD_eq_getElem?_getD, getD_startCounters, placeOf]
  placed p _ hp := absurd hp (Nat.not_lt_zero p)

/-- R189: a turn at position `k` with byte `c` writes both at their place and moves the counter of `c` on. -/
theorem PlacedBelow.placeByte {L : List Byte} {k : Nat} {w : InverseArrays} {c : Byte} (h : PlacedBelow L k w)
    (hk : L[k]? = some c) : PlacedBelow L (k + 1) (placeByte L w k) := by
  have hplace : placeOf L c k < L.length := placeOf_lt_length hk
  have hturn : Machine.placeByte L w k = ⟨w.scol.set (placeOf L c k) c, w.nxt.set (placeOf L c k) k,
      w.cnt.set c.toNat (placeOf L c k + 1)⟩ := by
    simp [Machine.placeByte, List.getD_eq_getElem?_getD, hk, ← h.counters c]
  rw [hturn]
  refine ⟨by simp [h.length_scol], by simp [h.length_nxt], by simp [h.length_cnt], fun d => ?_, fun p d hp hd => ?_⟩
  · have hc : c.toNat < w.cnt.length := by have := c.isLt; have := h.length_cnt; omega
    rw [getD_set _ _ _ _ hc, h.counters, placeOf_succ hk]
    by_cases hcd : c = d
    · simp [hcd]
    · simp [hcd, BitVec.toNat_inj]
  · rw [List.getElem?_set, List.getElem?_set, h.length_scol, h.length_nxt, if_pos hplace, if_pos hplace]
    rcases Nat.lt_succ_iff_lt_or_eq.mp hp with hlt | rfl
    · have hne : placeOf L c k ≠ placeOf L d p := fun heq => absurd (placeOf_inj hk hd heq) (Nat.ne_of_gt hlt)
      rw [if_neg hne, if_neg hne]
      exact h.placed p d hlt hd
    · obtain rfl : c = d := Option.some.inj (hk.symm.trans hd)
      simp

theorem foldl_placeByte_placedBelow (L : List Byte) {k : Nat} (hk : k ≤ L.length) :
    PlacedBelow L k ((List.range k).foldl (placeByte L) (emptyArrays L)) := by
  induction k with
  | zero => exact emptyArrays_placedBelow L
  | succ k ih =>
    rw [List.range_succ, List.foldl_concat]
    exact (ih (by omega)).placeByte (List.getElem?_eq_getElem hk)

theorem inverseArrays_placedBelow (L : List Byte) : PlacedBelow L L.length (inverseArrays L) :=
  foldl_placeByte_placedBelow L (Nat.le_refl _)

theorem length_scol (L : List Byte) : (inverseArrays L).scol.length = L.length :=
  (inverseArrays_placedBelow L).length_scol

theorem length_nxt (L : List Byte) : (inverseArrays L).nxt.length = L.length :=
  (inverseArrays_placedBelow L).length_nxt

/-! ## The two arrays, entry by entry -/

section arrays
variable {L : List Byte}

theorem getElem?_placeOf {c : Byte} {p : Nat} (hp : L[p]? = some c) :
    (inverseArrays L).scol[placeOf L c p]? = some c ∧ (inverseArrays L).nxt[placeOf L c p]? = some p :=
  (inverseArrays_placedBelow L).placed p c (List.getElem?_eq_some_iff.mp hp).1 hp

/-- R188: `next` holds every position of the last column once: each is written, and there are as many entries. -/
theorem nxt_perm_range (L : List Byte) : (inverseArrays L).nxt.Perm (List.range L.length) := by
  have hsub : List.range L.length ⊆ (inverseArrays L).nxt := fun p hp =>
    List.mem_of_getElem? (getElem?_placeOf (List.getElem?_eq_getElem (List.mem_range.mp hp))).2
  refine ((List.subperm_of_subset List.nodup_range hsub).perm_of_length_le ?_).symm
  rw [length_nxt, List.length_range]

theorem nxt_nodup (L : List Byte) : (inverseArrays L).nxt.Nodup := (nxt_perm_range L).nodup_iff.mpr List.nodup_range

/-- R187, R188: entry `i` of the two arrays is that of the occurrence whose place is `i`. -/
theorem exists_placeOf_eq {i : Nat} (hi : i < L.length) :
    ∃ p c, L[p]? = some c ∧ placeOf L c p = i ∧ (inverseArrays L).scol[i]? = some c ∧
      (inverseArrays L).nxt[i]? = some p := by
  have hi' : i < (inverseArrays L).nxt.length := by rwa [length_nxt]
  have hp : (inverseArrays L).nxt[i] < L.length :=
    List.mem_range.mp ((nxt_perm_range L).mem_iff.mp (List.getElem_mem hi'))
  have hc := List.getElem?_eq_getElem hp
  obtain ⟨hscol, hnxt⟩ := getElem?_placeOf hc
  have hplace : placeOf L L[(inverseArrays L).nxt[i]] (inverseArrays L).nxt[i] = i :=
    ((List.getElem?_inj hi' (nxt_nodup L)).mp ((List.getElem?_eq_getElem hi').trans hnxt.symm)).symm
  rw [hplace] at hscol hnxt
  exact ⟨_, _, hc, hplace, hscol, hnxt⟩

/-- The occurrence an entry of `next` names. -/
theorem placeOf_of_nxt {i p : Nat} (h : (inverseArrays L).nxt[i]? = some p) :
    ∃ c, L[p]? = some c ∧ placeOf L c p = i ∧ (inverseArrays L).scol[i]? = some c := by
  obtain ⟨q, c, hq, hplace, hscol, hnxt⟩ := exists_placeOf_eq (length_nxt L ▸ (List.getElem?_eq_some_iff.mp h).1)
  obtain rfl : q = p := Option.some.inj (hnxt.symm.trans h)
  exact ⟨c, hq, hplace, hscol⟩

/-- The occurrence an entry of the sorted column comes from. -/
theorem placeOf_of_scol {i : Nat} {c : Byte} (h : (inverseArrays L).scol[i]? = some c) :
    ∃ p, L[p]? = some c ∧ placeOf L c p = i ∧ (inverseArrays L).nxt[i]? = some p := by
  obtain ⟨p, d, hp, hplace, hscol, hnxt⟩ := exists_placeOf_eq (length_scol L ▸ (List.getElem?_eq_some_iff.mp h).1)
  obtain rfl : d = c := Option.some.inj (hscol.symm.trans h)
  exact ⟨p, hp, hplace, hnxt⟩

/-- R188: `L[NXT[i]] = SCOL[i]`. -/
theorem scol_eq_map_nxt (L : List Byte) : (inverseArrays L).scol = (inverseArrays L).nxt.map fun p => L.getD p 0 := by
  apply List.ext_getElem?
  intro i
  rw [List.getElem?_map]
  cases hnxt : (inverseArrays L).nxt[i]? with
  | none =>
    rw [List.getElem?_eq_none_iff, length_nxt] at hnxt
    exact List.getElem?_eq_none_iff.mpr (length_scol L ▸ hnxt)
  | some p =>
    obtain ⟨c, hp, -, hscol⟩ := placeOf_of_nxt hnxt
    simpa [hp] using hscol

end arrays

/-! ## The sorted column -/

theorem map_getD_range {α : Type} (l : List α) (d : α) : (List.range l.length).map (fun k => l.getD k d) = l := by
  apply List.ext_getElem (by simp)
  intro i hi hi'
  simp [hi']

/-- R187: the bytes of `L`, in non-decreasing order. -/
theorem scol_isSortedColumn (L : List Byte) : IsSortedColumn L (inverseArrays L).scol := by
  constructor
  · have hperm := (nxt_perm_range L).map fun p => L.getD p 0
    rwa [map_getD_range, ← scol_eq_map_nxt] at hperm
  · refine List.pairwise_iff_getElem.mpr fun i j hi hj hij => ?_
    obtain ⟨p, hp, hpi, -⟩ := placeOf_of_scol (List.getElem?_eq_getElem hi)
    obtain ⟨q, hq, hqj, -⟩ := placeOf_of_scol (List.getElem?_eq_getElem hj)
    rcases (placeOf_lt_iff hp hq).mp (by omega) with hlt | ⟨heq, -⟩
    · exact hlt.le
    · exact (congrArg BitVec.toNat heq).le

/-- R187: `c` stands exactly from `start(c)` up to `start(c) + occ(c)`, as those intervals do not meet. -/
theorem getElem?_scol_eq_some_iff {L : List Byte} {i : Nat} {c : Byte} :
    (inverseArrays L).scol[i]? = some c ↔ startOf L c ≤ i ∧ i < startOf L c + L.count c := by
  constructor
  · intro h
    obtain ⟨p, hp, rfl, -⟩ := placeOf_of_scol h
    exact ⟨Nat.le_add_right .., placeOf_lt_end hp⟩
  · rintro ⟨hlo, hhi⟩
    have hi : i < L.length := Nat.lt_of_lt_of_le hhi (startOf_add_count_le_length L c)
    obtain ⟨p, d, hp, hplace, hscol, -⟩ := exists_placeOf_eq hi
    have hdlo : startOf L d ≤ i := hplace ▸ Nat.le_add_right ..
    have hdhi : i < startOf L d + L.count d := hplace ▸ placeOf_lt_end hp
    rcases Nat.lt_trichotomy c.toNat d.toNat with h | h | h
    · have := startOf_add_count_le_startOf (L := L) h
      omega
    · rwa [BitVec.toNat_inj.mp h]
    · have := startOf_add_count_le_startOf (L := L) h
      omega

/-- Settles O40: the two halves of R187. -/
theorem offsetTableSortsTheLastColumn : Obligations.OffsetTableSortsTheLastColumn := fun L =>
  ⟨scol_isSortedColumn L, fun _ _ => getElem?_scol_eq_some_iff⟩

/-! ## The `next` permutation -/

theorem nxt_isNext (L : List Byte) : IsNext L (inverseArrays L).scol (inverseArrays L).nxt := by
  refine ⟨length_nxt L, fun i c h => ?_⟩
  obtain ⟨p, hp, rfl, hnxt⟩ := placeOf_of_scol h
  exact ⟨p, hnxt, hp, Nat.le_add_right .., by simp [placeOf]⟩

/-- R188: on a run of equal bytes a later place is that of a later position. -/
theorem nxt_lt_of_equal_bytes {L : List Byte} {i j p q : Nat} (hij : i < j)
    (hrun : (inverseArrays L).scol[i]? = (inverseArrays L).scol[j]?) (hp : (inverseArrays L).nxt[i]? = some p)
    (hq : (inverseArrays L).nxt[j]? = some q) : p < q := by
  obtain ⟨c, hpc, rfl, hci⟩ := placeOf_of_nxt hp
  obtain ⟨d, hqd, rfl, hdj⟩ := placeOf_of_nxt hq
  obtain rfl : c = d := by simpa [hci, hdj] using hrun
  simpa using (placeOf_lt_iff hpc hqd).mp hij

/-- Settles O41: entry `i` is the occurrence whose place is `i`, and places are a renumbering of the positions. -/
theorem nextPermutationLinksOccurrences : Obligations.NextPermutationLinksOccurrences := by
  refine fun L => ⟨nxt_isNext L, nxt_perm_range L, fun i p hp => ?_, fun i j p q hij => nxt_lt_of_equal_bytes hij⟩
  obtain ⟨c, hpc, -, hscol⟩ := placeOf_of_nxt hp
  rw [hpc, hscol]

/-! ## The growable buffers -/

/-- Position `p` stands before `q` in the order of the counting sort: its byte is smaller, or equal and further left. -/
def PlacedBefore (L : List Byte) (p q : Nat) : Prop :=
  ∃ c d, L[p]? = some c ∧ L[q]? = some d ∧ (c.toNat < d.toNat ∨ c = d ∧ p < q)

theorem PlacedBefore.asymm {L : List Byte} {p q : Nat} (h : PlacedBefore L p q) : ¬ PlacedBefore L q p := by
  rintro ⟨d, c, hq, hp, hqp⟩
  obtain ⟨c', d', hp', hq', hpq⟩ := h
  obtain rfl : c' = c := Option.some.inj (hp'.symm.trans hp)
  obtain rfl : d' = d := Option.some.inj (hq'.symm.trans hq)
  exact Nat.lt_asymm ((placeOf_lt_iff hp hq).mpr hpq) ((placeOf_lt_iff hq hp).mpr hqp)

/-- R187: the counting sort is stable. -/
theorem nxt_pairwise_placedBefore (L : List Byte) : (inverseArrays L).nxt.Pairwise (PlacedBefore L) := by
  refine List.pairwise_iff_getElem.mpr fun i j hi hj hij => ?_
  obtain ⟨c, hp, hpi, -⟩ := placeOf_of_nxt (List.getElem?_eq_getElem hi)
  obtain ⟨d, hq, hqj, -⟩ := placeOf_of_nxt (List.getElem?_eq_getElem hj)
  exact ⟨c, d, hp, hq, (placeOf_lt_iff hp hq).mp (by omega)⟩

/-- The buffer of one byte value: its positions in ascending order (R189). -/
def bucketOf (L : List Byte) (c : Nat) : List Nat :=
  (List.range L.length).filter fun i => decide (L[i]? = some (BitVec.ofNat 8 c))

theorem bucketNext_eq_flatMap (L : List Byte) : bucketNext L = (List.range 256).flatMap (bucketOf L) := rfl

theorem mem_bucketOf {L : List Byte} {c p : Nat} : p ∈ bucketOf L c ↔ L[p]? = some (BitVec.ofNat 8 c) := by
  simp only [bucketOf, List.mem_filter, List.mem_range, decide_eq_true_eq, and_iff_right_iff_imp]
  exact fun h => (List.getElem?_eq_some_iff.mp h).1

theorem mem_bucketNext {L : List Byte} {p : Nat} : p ∈ bucketNext L ↔ p < L.length := by
  simp only [bucketNext_eq_flatMap, List.mem_flatMap, List.mem_range, mem_bucketOf]
  refine ⟨fun ⟨_, _, hp⟩ => (List.getElem?_eq_some_iff.mp hp).1, fun hp => ⟨L[p].toNat, L[p].isLt, ?_⟩⟩
  rw [BitVec.ofNat_toNat, BitVec.setWidth_eq, List.getElem?_eq_getElem hp]

/-- Inside a buffer the positions ascend, and the buffers follow each other by their byte value. -/
theorem bucketNext_pairwise_placedBefore (L : List Byte) : (bucketNext L).Pairwise (PlacedBefore L) := by
  rw [bucketNext_eq_flatMap]
  refine List.pairwise_flatMap.mpr ⟨fun c _ => ?_, ?_⟩
  · have hascending : (bucketOf L c).Pairwise (· < ·) := List.pairwise_lt_range.filter _
    refine hascending.imp_of_mem fun hp hq hpq => ?_
    exact ⟨_, _, mem_bucketOf.mp hp, mem_bucketOf.mp hq, .inr ⟨rfl, hpq⟩⟩
  · refine List.pairwise_lt_range.imp_of_mem fun hc hd hcd p hp q hq => ?_
    rw [List.mem_range] at hc hd
    refine ⟨_, _, mem_bucketOf.mp hp, mem_bucketOf.mp hq, .inl ?_⟩
    rwa [BitVec.toNat_ofNat, BitVec.toNat_ofNat, Nat.mod_eq_of_lt hc, Nat.mod_eq_of_lt hd]

theorem bucketNext_perm_range (L : List Byte) : (bucketNext L).Perm (List.range L.length) := by
  have hnodup : (bucketNext L).Nodup := (bucketNext_pairwise_placedBefore L).imp fun h heq => by
    subst heq
    exact h.asymm h
  exact (List.perm_ext_iff_of_nodup hnodup List.nodup_range).mpr fun p => mem_bucketNext.trans List.mem_range.symm

/-- R189: both constructions list all positions in the order of the counting sort. -/
theorem nxt_eq_bucketNext (L : List Byte) : (inverseArrays L).nxt = bucketNext L :=
  List.Perm.eq_of_pairwise (fun _ _ _ _ hpq hqp => absurd hqp hpq.asymm) (nxt_pairwise_placedBefore L)
    (bucketNext_pairwise_placedBefore L) ((nxt_perm_range L).trans (bucketNext_perm_range L).symm)

/-- Settles O42: the same positions, and the bytes that stand there. -/
theorem offsetTableAgreesWithTheBuckets : Obligations.OffsetTableAgreesWithTheBuckets := fun L =>
  ⟨nxt_eq_bucketNext L, nxt_eq_bucketNext L ▸ scol_eq_map_nxt L⟩

end Sys2Proof.Machine
end

section
/-! PROOFS, 42_bwt_codec.md, the forward transform. The rotation before each row of the order starts with that row's
last byte. The last column depends on the order of the keys alone, so it is the same for every suffix order. -/

namespace Sys2Proof.Machine

open Sys2Proof

/-! ## Rotations shifted by one -/

theorem rotByte_add (b : List Byte) (i u t : Nat) : rotByte b (i + u) t = rotByte b i (u + t) := by
  simp only [rotByte, Nat.add_assoc]

theorem rotByte_mod (b : List Byte) (i t : Nat) : rotByte b i (t % b.length) = rotByte b i t := by
  simp only [rotByte, Nat.add_mod_mod]

/-- Equal rotations have the same byte at every distance, wrapped round or not. -/
theorem rotKey_eq_iff {b : List Byte} {i j : Nat} :
    rotKey b i = rotKey b j ↔ ∀ t, rotByte b i t = rotByte b j t := by
  refine ⟨fun h t => ?_, fun h => rotKey_eq_of_agreeBelow (fun t _ => h t) (Nat.le_refl _)⟩
  rcases Nat.eq_zero_or_pos b.length with hb | hb
  · simp [rotByte, List.eq_nil_of_length_eq_zero hb]
  · have hbyte : (rotByte b i (t % b.length)).toNat = (rotByte b j (t % b.length)).toNat :=
      congrFun (toLex.injective h) ⟨_, Nat.mod_lt t hb⟩
    rwa [BitVec.toNat_inj, rotByte_mod, rotByte_mod] at hbyte

/-- Rotations equal to each other stay so one byte later. -/
theorem rotKey_succ_congr {b : List Byte} {i j : Nat} (h : rotKey b i = rotKey b j) :
    rotKey b (i + 1) = rotKey b (j + 1) :=
  rotKey_eq_iff.mpr fun t => by rw [rotByte_add, rotByte_add, rotKey_eq_iff.mp h]

/-- The rotation that begins one byte before rotation `i` (R181). -/
def before (b : List Byte) (i : Nat) : Nat := (i + (b.length - 1)) % b.length

section before
variable {b : List Byte}

/-- R180: the byte immediately preceding a rotation's start. -/
theorem rotByte_before_zero (i : Nat) : rotByte b (before b i) 0 = rotByte b i (b.length - 1) := by
  simp only [rotByte, before, Nat.add_zero, Nat.mod_mod]

theorem rotByte_before_succ (hb : b ≠ []) (i t : Nat) : rotByte b (before b i) (t + 1) = rotByte b i t := by
  have hpos := List.length_pos_iff.mpr hb
  have hround : i + (b.length - 1) + (t + 1) = i + t + b.length := by omega
  simp only [rotByte, before, Nat.mod_add_mod, hround, Nat.add_mod_right]

theorem AgreeBelow.before (hb : b ≠ []) {d i j : Nat} (h : AgreeBelow b d i j)
    (hbyte : rotByte b i (b.length - 1) = rotByte b j (b.length - 1)) :
    AgreeBelow b (d + 1) (before b i) (before b j) := by
  intro t ht
  cases t with
  | zero => rw [rotByte_before_zero, rotByte_before_zero, hbyte]
  | succ t => rw [rotByte_before_succ hb, rotByte_before_succ hb, h t (Nat.lt_of_succ_lt_succ ht)]

theorem rotKey_before_lt (hb : b ≠ []) {i j : Nat}
    (hbyte : (rotByte b i (b.length - 1)).toNat < (rotByte b j (b.length - 1)).toNat) :
    rotKey b (before b i) < rotKey b (before b j) := by
  rw [← rotByte_before_zero, ← rotByte_before_zero] at hbyte
  exact rotKey_lt_of_agreeBelow (fun _ ht => absurd ht (Nat.not_lt_zero _)) (List.length_pos_iff.mpr hb) hbyte

/-- The same byte put before two rotations keeps their order. -/
theorem rotKey_before_le (hb : b ≠ []) {i j : Nat} (hij : rotKey b i ≤ rotKey b j)
    (hbyte : rotByte b i (b.length - 1) = rotByte b j (b.length - 1)) :
    rotKey b (before b i) ≤ rotKey b (before b j) := by
  rcases le_iff_lt_or_eq.mp hij with ⟨t, hbelow, hlt⟩ | heq
  · have hagree : AgreeBelow b t i j := fun u hu =>
      BitVec.toNat_inj.mp (hbelow ⟨u, Nat.lt_trans hu t.isLt⟩ hu)
    have hagree' := hagree.before hb hbyte
    rcases Nat.lt_or_ge (t.val + 1) b.length with ht | ht
    · refine (rotKey_lt_of_agreeBelow hagree' ht ?_).le
      rw [rotByte_before_succ hb, rotByte_before_succ hb]
      exact hlt
    · exact (rotKey_eq_of_agreeBelow hagree' ht).le
  · have hagree : AgreeBelow b b.length i j := fun t _ => rotKey_eq_iff.mp heq t
    exact (rotKey_eq_of_agreeBelow (hagree.before hb hbyte) (Nat.le_succ _)).le

end before

/-- The rotations before all rotations are all rotations. -/
theorem map_before_range_perm (b : List Byte) : ((List.range b.length).map (before b)).Perm (List.range b.length) := by
  have hrotate : (List.range b.length).map (before b) = (List.range b.length).rotate (b.length - 1) := by
    apply List.ext_getElem (by simp)
    intro i hi hi'
    simp [before, List.getElem_rotate]
  exact hrotate ▸ List.rotate_perm _ _

/-! ## The last column -/

theorem length_lastColumn (b : List Byte) (order : List Nat) : (lastColumn b order).length = order.length :=
  List.length_map _

theorem getElem?_lastColumn (b : List Byte) {order : List Nat} {k r : Nat} (h : order[k]? = some r) :
    (lastColumn b order)[k]? = some (rotByte b r (b.length - 1)) := by
  simp [lastColumn, h]

/-- R183: each byte of the block precedes one rotation. -/
theorem lastColumn_perm (b : List Byte) {order : List Nat} (horder : order.Perm (List.range b.length)) :
    (lastColumn b order).Perm b := by
  have hcolumn : lastColumn b order = (order.map (before b)).map fun i => b.getD i 0 := by
    rw [List.map_map]
    exact List.map_congr_left fun _ _ => rfl
  have hperm := ((horder.map (before b)).trans (map_before_range_perm b)).map fun i => b.getD i 0
  rwa [← hcolumn, map_getD_range] at hperm

section orders
variable {b : List Byte} {order order' : List Nat} (h : IsSuffixOrder b order)
include h

theorem IsSuffixOrder.length_eq : order.length = b.length := by
  simpa using h.1.length_eq

/-- Two suffix orders list the same keys: only identical rotations can change places (R184). -/
theorem IsSuffixOrder.map_rotKey_eq (h' : IsSuffixOrder b order') : order.map (rotKey b) = order'.map (rotKey b) := by
  obtain ⟨hperm, hsorted⟩ := isSuffixOrder_iff.mp h
  obtain ⟨hperm', hsorted'⟩ := isSuffixOrder_iff.mp h'
  exact List.Perm.eq_of_pairwise (fun _ _ _ _ => le_antisymm) (List.pairwise_map.mpr hsorted)
    (List.pairwise_map.mpr hsorted') ((hperm.trans hperm'.symm).map _)

theorem IsSuffixOrder.rotByte_eq (h' : IsSuffixOrder b order') {k i j : Nat} (hi : order[k]? = some i)
    (hj : order'[k]? = some j) (t : Nat) : rotByte b i t = rotByte b j t := by
  have hkey := congrArg (·[k]?) (h.map_rotKey_eq h')
  simp only [List.getElem?_map, hi, hj, Option.map_some, Option.some.injEq] at hkey
  exact rotKey_eq_iff.mp hkey t

/-- R184: "identical rotations are preceded by identical bytes". -/
theorem IsSuffixOrder.lastColumn_eq (h' : IsSuffixOrder b order') : lastColumn b order = lastColumn b order' := by
  apply List.ext_getElem (by rw [length_lastColumn, length_lastColumn, h.length_eq, h'.length_eq])
  intro k hk hk'
  simp only [lastColumn, List.getElem_map]
  rw [length_lastColumn] at hk hk'
  exact h.rotByte_eq h' (List.getElem?_eq_getElem hk) (List.getElem?_eq_getElem hk') _

/-- R181: step 2 names a row. -/
theorem IsSuffixOrder.getElem?_firstRowIndex (hb : b ≠ []) : order[firstRowIndex order]? = some 0 :=
  List.getElem?_idxOf (h.1.mem_iff.mpr (List.mem_range.mpr (List.length_pos_iff.mpr hb)))

end orders

/-! ## `BWT.FWD` -/

/-- Settles O35: the array of the sort is a suffix order, and the column is read off it byte by byte. -/
theorem bwtFwdWritesThePair : Obligations.BwtFwdWritesThePair := by
  intro s hlen hn
  obtain ⟨-, -, hpos⟩ := blkchk_block_length (blkchk_eq_none.mpr ⟨hlen, hn⟩)
  have hb : s.ibuf ≠ [] := List.length_pos_iff.mp (by omega)
  have horder := suffixOrder_isSuffixOrder s.ibuf
  refine ⟨_, firstRowIndex (suffixOrder s.ibuf), lastColumn s.ibuf (suffixOrder s.ibuf), rfl, horder,
    horder.getElem?_firstRowIndex hb, ?_, fun j r hj => ?_, exec_bwtFwd_loaded hlen hn⟩
  · rw [length_lastColumn, suffixOrder_length, hlen]
  · rw [getElem?_lastColumn _ hj, ← getElem?_rotation (by omega), hlen, Nat.add_sub_assoc hpos]

/-- R183: `N` and the input decide `BLKCHK`. -/
theorem blkchk_congr {s u : State} (hn : u.n = s.n) (hi : u.ibuf = s.ibuf) : blkchk u = blkchk s := by
  simp only [blkchk, hn, hi]

/-- Settles O37: the rearrangement, and the two ends of the command by what `BLKCHK` says, the same for both states. -/
theorem lastColumnRearrangesTheBlock : Obligations.LastColumnRearrangesTheBlock := by
  refine ⟨fun b _ => lastColumn_perm b (suffixOrder_perm_range b), fun s u hn hi => ?_⟩
  have hcheck := blkchk_congr hn hi
  cases hs : blkchk s with
  | some c =>
    refine ⟨_, _, _, exec_of_blkchk_raises hs (i := .bwtFwd) (by decide),
      exec_of_blkchk_raises (hcheck.trans hs) (i := .bwtFwd) (by decide), rfl, rfl, fun hlen h0 => ?_⟩
    simp [blkchk_eq_none.mpr ⟨hlen, h0⟩] at hs
  | none =>
    obtain ⟨hlen, h0⟩ := blkchk_eq_none.mp hs
    obtain ⟨hlen', h0'⟩ := blkchk_eq_none.mp (hcheck.trans hs)
    refine ⟨_, _, _, exec_bwtFwd_loaded hlen h0, exec_bwtFwd_loaded hlen' h0', rfl, rfl, fun _ _ => ?_⟩
    simp [afterOk, hi]

end Sys2Proof.Machine
end

section
/-! PROOFS, 42_bwt_codec.md, the round trip. The rotations before the rows, taken in the order of the counting sort, are
a suffix order again. So `next` leads from each row to one whose rotation begins one byte later, and the walk from the row
of rotation 0 spells the block. -/

namespace Sys2Proof.Machine

open Sys2Proof

/-! ## One step of the walk -/

section step
variable {b : List Byte} {order : List Nat} (hb : b ≠ []) (h : IsSuffixOrder b order)
include hb h

/-- Rows that the counting sort puts in order have the rotations before them in order: a smaller byte comes first, and
rows that end in the same byte are in order themselves. -/
theorem rotKey_before_le_of_placedBefore {p q : Nat} (hpq : PlacedBefore (lastColumn b order) p q) :
    rotKey b (before b (order.getD p 0)) ≤ rotKey b (before b (order.getD q 0)) := by
  obtain ⟨c, d, hp, hq, hplaced⟩ := hpq
  have hrow {k : Nat} {x : Byte} (hk : (lastColumn b order)[k]? = some x) :
      ∃ hlt : k < order.length, order.getD k 0 = order[k] ∧ rotByte b order[k] (b.length - 1) = x := by
    have hlt := length_lastColumn b order ▸ (List.getElem?_eq_some_iff.mp hk).1
    rw [getElem?_lastColumn b (List.getElem?_eq_getElem hlt), Option.some.injEq] at hk
    exact ⟨hlt, List.getD_eq_getElem _ _ hlt, hk⟩
  obtain ⟨hpo, hpr, rfl⟩ := hrow hp
  obtain ⟨hqo, hqr, rfl⟩ := hrow hq
  rw [hpr, hqr]
  rcases hplaced with hlt | ⟨heq, hlt⟩
  · exact (rotKey_before_lt hb hlt).le
  · exact rotKey_before_le hb (List.pairwise_iff_getElem.mp (isSuffixOrder_iff.mp h).2 p q hpo hqo hlt) heq

/-- R191: the rotations before the rows, in the order of the counting sort, are a suffix order. -/
theorem isSuffixOrder_before_nxt :
    IsSuffixOrder b ((inverseArrays (lastColumn b order)).nxt.map fun p => before b (order.getD p 0)) := by
  refine isSuffixOrder_iff.mpr ⟨?_, ?_⟩
  · have hrows : (inverseArrays (lastColumn b order)).nxt.Perm (List.range order.length) :=
      length_lastColumn b order ▸ nxt_perm_range _
    have hrotations := hrows.map fun p => order.getD p 0
    rw [map_getD_range] at hrotations
    have hperm := ((hrotations.trans h.1).map (before b)).trans (map_before_range_perm b)
    rwa [List.map_map] at hperm
  · exact List.pairwise_map.mpr ((nxt_pairwise_placedBefore _).imp (rotKey_before_le_of_placedBefore hb h))

/-- R191: at row `k` the walk emits the first byte of the row's rotation and goes on to a row whose rotation begins one
byte later. -/
theorem walk_step {k i : Nat} (hk : order[k]? = some i) :
    (inverseArrays (lastColumn b order)).scol.getD k 0 = rotByte b i 0 ∧
      ∃ j, order[(inverseArrays (lastColumn b order)).nxt.getD k 0]? = some j ∧ rotKey b j = rotKey b (i + 1) := by
  have hkL : k < (lastColumn b order).length := length_lastColumn b order ▸ (List.getElem?_eq_some_iff.mp hk).1
  obtain ⟨p, c, hp, -, hscol, hnxt⟩ := exists_placeOf_eq hkL
  have hpo : p < order.length := length_lastColumn b order ▸ (List.getElem?_eq_some_iff.mp hp).1
  have hj := List.getElem?_eq_getElem hpo
  have hbefore : ∀ t, rotByte b (before b order[p]) t = rotByte b i t :=
    (isSuffixOrder_before_nxt hb h).rotByte_eq h (by simp [hnxt, hj]) hk
  have hc : c = rotByte b order[p] (b.length - 1) := Option.some.inj (hp.symm.trans (getElem?_lastColumn b hj))
  refine ⟨?_, order[p], by simp [hnxt, hj], rotKey_eq_iff.mpr fun t => ?_⟩
  · rw [← hbefore, rotByte_before_zero, ← hc]
    simp [hscol]
  · rw [← rotByte_before_succ hb, hbefore, rotByte_add, Nat.add_comm 1 t]

/-! ## The walk -/

/-- R191: after `t` steps from the row of rotation 0 the walk stands at a row whose rotation equals rotation `t`. -/
theorem exists_row_after (t : Nat) :
    ∃ i, order[(fun cur => (inverseArrays (lastColumn b order)).nxt.getD cur 0)^[t] (firstRowIndex order)]? = some i ∧
      rotKey b i = rotKey b t := by
  induction t with
  | zero => exact ⟨0, h.getElem?_firstRowIndex hb, rfl⟩
  | succ t ih =>
    obtain ⟨i, hi, hkey⟩ := ih
    obtain ⟨-, j, hj, hkey'⟩ := walk_step hb h hi
    rw [Function.iterate_succ_apply']
    exact ⟨j, hj, hkey'.trans (rotKey_succ_congr hkey)⟩

end step

/-- R190: the walk emits the sorted column at the rows it stands at. -/
theorem walk_eq_map (scol : List Byte) (nxt : List Nat) (steps cur : Nat) :
    walk scol nxt steps cur =
      (List.range steps).map fun i => scol.getD ((fun cur => nxt.getD cur 0)^[i] cur) 0 := by
  induction steps generalizing cur with
  | zero => rfl
  | succ steps ih =>
    rw [walk, ih, List.range_succ_eq_map, List.map_cons, List.map_map]
    rfl

/-- R191: from the row of rotation 0 the inverse spells the block, whatever suffix order gave the column. -/
theorem inverseTransform_lastColumn {b : List Byte} {order : List Nat} (hb : b ≠ []) (h : IsSuffixOrder b order) :
    inverseTransform (firstRowIndex order) (lastColumn b order) = b := by
  rw [inverseTransform, walk_eq_map, length_lastColumn, h.length_eq]
  refine (List.map_congr_left fun t ht => ?_).trans (map_getD_range b 0)
  obtain ⟨i, hi, hkey⟩ := exists_row_after hb h t
  obtain ⟨hscol, -⟩ := walk_step hb h hi
  rw [hscol, rotKey_eq_iff.mp hkey, rotByte, Nat.add_zero, Nat.mod_eq_of_lt (List.mem_range.mp ht)]

/-- Settles O44: the keys of any two suffix orders are the same, and the inverse needs no more of the order. -/
theorem tieOrderDoesNotChangeTheLastColumn : Obligations.TieOrderDoesNotChangeTheLastColumn := fun b order hb h =>
  ⟨h.lastColumn_eq (suffixOrder_isSuffixOrder b),
    fun hperiod => congrArg firstRowIndex (nonPeriodicBlocksHaveOneSuffixOrder b order hb hperiod h),
    inverseTransform_lastColumn hb h⟩

end Sys2Proof.Machine
end

section
/-! PROOFS, 42_bwt_codec.md, `BWT.INV`. What `INVCHK` refuses, and what the command answers on a pair it passes. -/

namespace Sys2Proof.Machine

open Sys2Proof

/-! ## The input check -/

theorem invchk_length {s : State} (h : s.ibuf.length ≠ s.n.toNat + 4) : invchk s = .error .iiLength := by
  rw [invchk, if_pos h]

theorem invchk_empty {s : State} (h : s.ibuf.length = s.n.toNat + 4) (h0 : s.n = 0) : invchk s = .error .iiEmpty := by
  rw [invchk, if_neg (not_not.mpr h), if_pos h0]

theorem invchk_index {s : State} (h : s.ibuf.length = s.n.toNat + 4) (h0 : s.n ≠ 0) (hf : s.n ≤ ofBe32 s.ibuf) :
    invchk s = .error .iiIndex := by
  rw [invchk, if_neg (not_not.mpr h), if_neg h0, if_pos hf]

theorem exec_bwtInv_refused {s : State} {c : Cause} (h : invchk s = .error c) :
    exec .bwtInv s = .next (afterError s 0x31 c.code) := by
  simp only [exec, execBwtInv, h, raise_eq_afterError, opcode]

/-- Settles O38: the three checks in their order. -/
theorem bwtInvChecksItsInput : Obligations.BwtInvChecksItsInput := by
  refine fun s => ⟨fun h => exec_bwtInv_refused (c := .iiLength) (invchk_length h),
    fun h h0 => exec_bwtInv_refused (c := .iiEmpty) (invchk_empty h h0), fun x y z u L hi hlen h0 hf => ?_⟩
  refine exec_bwtInv_refused (c := .iiIndex) (invchk_index ?_ h0 ?_)
  · rw [hi, ← hlen]
    rfl
  · rwa [BitVec.le_def, hi, ofBe32_toNat]

/-! ## The command -/

/-- R186: a pair whose index lies inside the column is inverted. -/
theorem exec_bwtInv_loaded {s : State} {f : Word} {L : List Byte} (hi : s.ibuf = serialise f L)
    (hlen : L.length = s.n.toNat) (hf : f < s.n) :
    exec .bwtInv s = .next (afterOk { s with fri := f, obuf := inverseTransform f.toNat L, orp := 0 } 0) := by
  have hindex : ofBe32 s.ibuf = f := hi ▸ ofBe32_be32_append f L
  have hn : s.n ≠ 0 := fun h0 => by simp [h0] at hf
  have hfull : s.ibuf.length = s.n.toNat + 4 := by simp [hi, serialise, be32, hlen]
  have hcheck : invchk s = .ok f := invchk_eq_ok.mpr ⟨hfull, hn, hindex ▸ hf, hindex.symm⟩
  have hcolumn : lcol s = L := by simp [lcol, hi, serialise, be32, ← hlen]
  simp only [exec, execBwtInv, hcheck, hcolumn, succeed_eq_afterOk, setOutput]

/-- Settles O39: the four bytes are the serialised index, and the two arrays are the sorted column and its `next`. -/
theorem bwtInvWalksTheNextPermutation : Obligations.BwtInvWalksTheNextPermutation := by
  rintro s x y z u L f hi hlen - hf hlt
  have hvalue : (ofBe32 (x :: y :: z :: u :: L)).toNat = f := hf ▸ ofBe32_toNat x y z u L
  have hpair : s.ibuf = serialise (ofBe32 (x :: y :: z :: u :: L)) L := by rw [serialise, be32_ofBe32, hi]; rfl
  have hword : BitVec.ofNat 32 f = ofBe32 (x :: y :: z :: u :: L) := by
    rw [← hvalue, BitVec.ofNat_toNat, BitVec.setWidth_eq]
  refine ⟨_, _, scol_isSortedColumn L, nxt_isNext L, ?_⟩
  rw [exec_bwtInv_loaded hpair hlen (by rwa [BitVec.lt_def, hvalue]), inverseTransform, walk_eq_map, hvalue, hlen,
    hword]

/-- Settles O43: the pair passes `INVCHK`, and its inverse is the block. -/
theorem inverseRecoversTheBlock : Obligations.InverseRecoversTheBlock := by
  intro s hlen hn
  refine ⟨_, exec_bwtFwd_loaded hlen hn, fun u hun hui => ?_⟩
  have horder := suffixOrder_isSuffixOrder s.ibuf
  obtain ⟨-, -, hpos⟩ := blkchk_block_length (blkchk_eq_none.mpr ⟨hlen, hn⟩)
  have hb : s.ibuf ≠ [] := List.length_pos_iff.mp (by omega)
  have hrow : firstRowIndex (suffixOrder s.ibuf) < s.n.toNat := hlen ▸ firstRowIndex_suffixOrder_lt (by omega)
  have hword : (word (firstRowIndex (suffixOrder s.ibuf))).toNat = firstRowIndex (suffixOrder s.ibuf) :=
    word_toNat_of_lt (Nat.lt_trans hrow s.n.isLt)
  rw [exec_bwtInv_loaded hui (by rw [length_lastColumn, suffixOrder_length, hun, hlen])
    (by rwa [BitVec.lt_def, hword, hun]), hword, inverseTransform_lastColumn hb horder]
  rfl

/-- R192: a pair that is no block's transform, inverted as R187 to R190 compute. -/
theorem inverseTransform_unmatched_pair : inverseTransform 0 [0x41, 0x42] = [0x41, 0x41] := by
  rw [inverseTransform, scol_eq_map_nxt, nxt_eq_bucketNext]
  decide

/-- Settles O45: the first is the round trip of the spec's example, its order the one R153 prints. -/
theorem inverseTransformsOfTheSpecsExamples : Obligations.InverseTransformsOfTheSpecsExamples := by
  obtain ⟨horder, -⟩ := suffixOrdersOfTheSpecsExamples
  have hround := inverseTransform_lastColumn
    (b := [0x41, 0x42, 0x52, 0x41, 0x43, 0x41, 0x44, 0x41, 0x42, 0x52, 0x41, 0x21]) (List.cons_ne_nil _ _)
    (suffixOrder_isSuffixOrder _)
  rw [horder] at hround
  exact ⟨hround, inverseTransform_unmatched_pair⟩

end Sys2Proof.Machine
end

section
/-! PROOFS, 43_mtf_codec.md, the codec. In a table that is a permutation the scan and the lookup undo each other, so both
commands move the same entry to the front. -/

namespace Sys2Proof.Machine

open Sys2Proof

/-! ## The table as a permutation -/

theorem getElem_identityTable (v : Fin 256) : identityTable[v.val] = BitVec.ofNat 8 v.val := by
  simp [identityTable]

theorem identityTable_nodup : identityTable.toList.Nodup := by
  rw [identityTable, Vector.toList_ofFn, List.nodup_ofFn]
  exact fun i j hij => Fin.ext (by simpa [← BitVec.toNat_inj] using hij)

section byteTable
variable {t : Vector Byte 256} (ht : IsByteTable t)
include ht

/-- R216: every byte value stands in the table. -/
theorem exists_table_entry (x : Byte) : ∃ i : Fin 256, t[i.val] = x := by
  have hx : x ∈ identityTable.toList := by
    rw [identityTable, Vector.toList_ofFn, List.mem_ofFn]
    exact ⟨x.toFin, by simp⟩
  obtain ⟨k, hk, hkx⟩ := List.getElem_of_mem (ht.mem_iff.mpr hx)
  exact ⟨⟨k, by simpa using hk⟩, by simpa using hkx⟩

/-- R216: no byte value stands in the table twice. -/
theorem getElem_table_inj {i j : Fin 256} (hij : t[i.val] = t[j.val]) : i = j := by
  have hnodup : t.toList.Nodup := ht.nodup_iff.mpr identityTable_nodup
  exact Fin.ext ((hnodup.getElem_inj_iff (hi := by simp) (hj := by simp)).mp (by simpa using hij))

/-- R212: the scan finds an entry that holds the byte. -/
theorem getElem_tableFind (x : Byte) : t[(tableFind t x).val] = x := by
  obtain ⟨i, hi⟩ := exists_table_entry ht x
  obtain ⟨k, hfind⟩ : ∃ k, ((List.finRange 256).find? fun j => t[j.val] == x) = some k := by
    rw [← Option.isSome_iff_exists, List.find?_isSome]
    exact ⟨i, List.mem_finRange i, beq_iff_eq.mpr hi⟩
  simp only [tableFind, hfind, Option.getD_some]
  simpa using List.find?_some hfind

/-- R212, R214: the scan for the entry at an index finds that index. -/
theorem tableFind_getElem (i : Fin 256) : tableFind t t[i.val] = i :=
  getElem_table_inj ht (getElem_tableFind ht _)

end byteTable

/-! ## The commands -/

theorem exec_mtfInit (s : State) : exec .mtfInit s = .next (afterOk { s with mtft := identityTable } 0) := by
  simp only [exec, execMtfInit, succeed_eq_afterOk]

theorem exec_mtfEnc (x : Byte) (s : State) :
    exec (.mtfEnc x) s =
      .next (afterOk { s with mtft := frontMove s.mtft (tableFind s.mtft x) } (word (tableFind s.mtft x).val)) := by
  simp only [exec, execMtfEnc, succeed_eq_afterOk]

theorem exec_mtfDec (k : Byte) (s : State) :
    exec (.mtfDec k) s =
      .next (afterOk { s with mtft := frontMove s.mtft k.toFin } (s.mtft[k.toFin.val].setWidth 32)) := by
  simp only [exec, execMtfDec, succeed_eq_afterOk, tableIndex, zext]

/-- Settles O46: the table written is the identity. -/
theorem mtfInitWritesTheIdentity : Obligations.MtfInitWritesTheIdentity := fun s =>
  ⟨_, exec_mtfInit s, rfl, getElem_identityTable⟩

/-- Settles O47: the scan's index holds the byte, and no other does. -/
theorem mtfEncFindsTheByteAndMovesIt : Obligations.MtfEncFindsTheByteAndMovesIt := fun s x ht =>
  ⟨tableFind s.mtft x, getElem_tableFind ht x, fun _ hj => getElem_table_inj ht (hj.trans (getElem_tableFind ht x).symm),
    exec_mtfEnc x s⟩

/-- Settles O48: the operand of an index names that index. -/
theorem mtfDecLooksUpAndMoves : Obligations.MtfDecLooksUpAndMoves := fun s k => by
  have hk : (BitVec.ofNat 8 k.val).toFin = k := Fin.ofNat_val_eq_self k
  simp only [exec_mtfDec, hk]

/-- Settles O49: the entries of the moved table, and the entry taken out and put in front. -/
theorem frontMoveShiftsThePrefix : Obligations.FrontMoveShiftsThePrefix := fun t i =>
  ⟨frontMove_toList t i, frontMove_perm t i⟩

/-! ## The round trip -/

section roundTrip
variable {s u : State} (ht : IsByteTable s.mtft) (hu : u.mtft = s.mtft)
include ht hu

/-- R215, at an index: encoding the entry there answers the index, and decoding the index answers the entry. -/
theorem exec_mtf_at_index (k : Byte) :
    exec (.mtfEnc s.mtft[k.toFin.val]) u =
        .next (afterOk { u with mtft := frontMove s.mtft k.toFin } (k.setWidth 32)) ∧
      exec (.mtfDec k) u =
        .next (afterOk { u with mtft := frontMove s.mtft k.toFin } (s.mtft[k.toFin.val].setWidth 32)) := by
  have hword : word k.toFin.val = k.setWidth 32 := BitVec.ofNat_toNat 32 k
  refine ⟨?_, ?_⟩
  · rw [exec_mtfEnc, hu, tableFind_getElem ht, hword]
  · rw [exec_mtfDec]
    simp only [hu]

/-- R215: one symbol encoded from one state and its code decoded from the other. -/
theorem exec_mtfEnc_mtfDec (x : Byte) : ∃ (k : Byte) (T : Vector Byte 256), IsByteTable T ∧
    exec (.mtfEnc x) s = .next (afterOk { s with mtft := T } (k.setWidth 32)) ∧
      exec (.mtfDec k) u = .next (afterOk { u with mtft := T } (x.setWidth 32)) := by
  obtain ⟨i, rfl⟩ := exists_table_entry ht x
  obtain ⟨henc, -⟩ := exec_mtf_at_index ht rfl (BitVec.ofFin i)
  obtain ⟨-, hdec⟩ := exec_mtf_at_index ht hu (BitVec.ofFin i)
  exact ⟨BitVec.ofFin i, frontMove s.mtft i, frontMove_isByteTable ht i, henc, hdec⟩

end roundTrip

/-- Settles O50: every byte is the entry at its index, and the two commands agree at an index. -/
theorem mtfDecodeInvertsEncode : Obligations.MtfDecodeInvertsEncode := by
  intro s u ht hu
  refine ⟨fun x => ?_, fun k => ?_⟩
  · obtain ⟨k, T, -, hencdec⟩ := exec_mtfEnc_mtfDec ht hu x
    exact ⟨k, T, hencdec⟩
  · obtain ⟨-, hdec⟩ := exec_mtf_at_index ht rfl k
    obtain ⟨henc, -⟩ := exec_mtf_at_index ht hu k
    exact ⟨_, _, hdec, henc⟩

theorem execAll_cons {i : Instr} {s t : State} (rest : List Instr) (h : exec i s = .next t) :
    execAll (i :: rest) s = execAll rest t := by
  simp only [execAll, h]

/-- The response word of a byte result. -/
theorem afterOk_byte_responses (s : State) (x : Byte) :
    (afterOk s (x.setWidth 32)).responses = s.responses ++ [x.setWidth 64] := by
  simp [afterOk]

/-- Settles O51, by induction on the bytes: each symbol leaves both sides the same table, again a permutation. -/
theorem mtfStreamsRoundTrip : Obligations.MtfStreamsRoundTrip := by
  intro s u bytes ht hu
  induction bytes generalizing s u with
  | nil => exact ⟨[], s, u, rfl, by simp, rfl, rfl, by simp, hu⟩
  | cons x bytes ih =>
    obtain ⟨k, T, hT, henc, hdec⟩ := exec_mtfEnc_mtfDec ht hu x
    obtain ⟨codes, t, v, hencAll, htr, hlen, hdecAll, hvr, htable⟩ :=
      ih (afterOk { s with mtft := T } (k.setWidth 32)) (afterOk { u with mtft := T } (x.setWidth 32)) hT rfl
    rw [afterOk_byte_responses] at htr hvr
    exact ⟨k :: codes, t, v, (execAll_cons _ henc).trans hencAll, by simpa using htr, by simpa using hlen,
      (execAll_cons _ hdec).trans hdecAll, by simpa using hvr, htable⟩

end Sys2Proof.Machine
end

section
/-! PROOFS, 43_mtf_codec.md, independence. An MTF command reads and writes the table alone; the checks, reads and writes of
every other command do not look at it. -/

namespace Sys2Proof.Machine

open Sys2Proof

/-- R218: the new table and the answer of an MTF command are functions of the table. -/
theorem exec_isMtf {i : Instr} (hi : IsMtf i = true) (t : Vector Byte 256) :
    ∃ T v, ∀ s : State, s.mtft = t → exec i s = .next (afterOk { s with mtft := T } v) := by
  cases i with
  | mtfInit => exact ⟨_, _, fun s _ => exec_mtfInit s⟩
  | mtfEnc x => exact ⟨_, _, fun s hs => hs ▸ exec_mtfEnc x s⟩
  | mtfDec k => exact ⟨_, _, fun s hs => hs ▸ exec_mtfDec k s⟩
  | _ => cases hi

/-- R42, R218: only `RESET` and the MTF commands write the table. -/
theorem exec_keeps_table {i : Instr} {s t : State} (hi : IsMtf i = false) (hreset : i ≠ .reset)
    (h : exec i s = .next t) : t.mtft = s.mtft := by
  obtain ⟨-, -, -, htable, -⟩ := spacesHaveTheirWriters i s t h
  by_contra hne
  rcases htable hne with rfl | rfl | ⟨x, rfl⟩ | ⟨k, rfl⟩
  · exact hreset rfl
  all_goals cases hi

section tableUnread
variable (s : State) (T : Vector Byte 256)

theorem blkchk_with_table : blkchk { s with mtft := T } = blkchk s := rfl
theorem chrCheck_with_table : chrCheck { s with mtft := T } = chrCheck s := rfl
theorem cmpCheck_with_table : cmpCheck { s with mtft := T } = cmpCheck s := rfl
theorem invchk_with_table : invchk { s with mtft := T } = invchk s := rfl
theorem ordRead_with_table (k : Word) : ordRead k { s with mtft := T } = ordRead k s := rfl
theorem obufNext_with_table : obufNext { s with mtft := T } = obufNext s := rfl

theorem readReg_with_table (r : Reg) : readReg r { s with mtft := T } = readReg r s := by
  cases r <;> rfl

theorem writeReg_with_table (r : Reg) (x : Word) :
    writeReg r x { s with mtft := T } = { writeReg r x s with mtft := T } := by
  cases r <;> rfl

end tableUnread

/-- R218: no command but those of the MTF unit and `RESET` decides, answers or writes by the table. -/
theorem exec_with_table {i : Instr} {s t : State} (T : Vector Byte 256) (hi : IsMtf i = false) (hreset : i ≠ .reset)
    (h : exec i s = .next t) : exec i { s with mtft := T } = .next { t with mtft := T } := by
  cases i with
  | mtfInit | mtfEnc _ | mtfDec _ => cases hi
  | reset => exact absurd rfl hreset
  | nop | clr | clrerr => cases h; rfl
  | setr reg x =>
    simp only [exec, execSetr, writeReg_with_table] at h ⊢
    split at h
    · cases h; rfl
    · split at h
      · next hw => cases h; exact if_pos hw
      · next hw =>
        rw [if_neg hw]
        split at h
        · next hv => cases h; rw [if_pos hv]; rfl
        · next hv => cases h; rw [if_neg hv]; rfl
  | putb x =>
    by_cases hfull : s.ibuf.length = NMAX + 4
    · rw [exec_putb_full x hfull] at h
      cases h
      exact exec_putb_full x hfull
    · rw [exec_putb_room x hfull] at h
      cases h
      exact exec_putb_room x hfull
  | getr _ | getb | srkSort | srkRdord _ | srkChr | srkCmp | srkCmpr | bwtFwd | bwtInv =>
    simp only [exec, execGetr, execGetb, execSrkSort, execSrkRdord, execSrkChr, execSrkCmp, execSrkCmpr, execBwtFwd,
      execBwtInv, readReg_with_table, blkchk_with_table, chrCheck_with_table, cmpCheck_with_table, invchk_with_table,
      ordRead_with_table, obufNext_with_table] at h ⊢
    split at h <;> cases h <;> rfl

/-- Settles O52: what an MTF command does is fixed by the table, and no other command but `RESET` writes or reads it. -/
theorem mtfUnitSharesNoState : Obligations.MtfUnitSharesNoState := by
  refine ⟨fun i s t hi h => ?_, fun i s u hi hu => ?_, fun i s t T hi hreset h =>
    ⟨exec_keeps_table hi hreset h, exec_with_table T hi hreset h⟩⟩
  · obtain ⟨T, v, hx⟩ := exec_isMtf hi s.mtft
    rw [hx s rfl] at h
    cases h
    rfl
  · obtain ⟨T, v, hx⟩ := exec_isMtf hi s.mtft
    exact ⟨_, _, v.setWidth 64, hx s rfl, hx u hu, rfl, rfl, rfl⟩

end Sys2Proof.Machine
end

section
/-! PROOFS, 60_exceptions.md. A command that ends in an error changes the error record and nothing else. -/

namespace Sys2Proof.Machine

open Sys2Proof

/-- Settles O53: a raised error changes the record alone, by its definition; an effect that succeeds answers `ERR = 0`, so
it is not the case in question. -/
theorem errorsChangeOnlyTheErrorRecord : Obligations.ErrorsChangeOnlyTheErrorRecord := by
  intro s t w rest r hi h hr herr
  rcases step_command_cases hi h with ⟨c, rfl⟩ | ⟨i, v, u, -, hu, rfl⟩
  · obtain rfl : rspErr c.code = r := by simpa using hr
    rw [causeField_rspErr]
    exact raise_eq_afterError (opField w) c { s with inputs := rest }
  · obtain ⟨hresponses, -⟩ := effect_responses_inputs hu
    obtain rfl : rspOk v = r := by simpa [hresponses] using hr
    rw [errBit_rspOk] at herr
    cases herr

end Sys2Proof.Machine
end

section
/-! PROOFS, 70_reset_and_hazards.md. The step with no command to finish: the reset event and waiting; and how the suffix
order goes stale and is rebuilt. -/

namespace Sys2Proof.Machine

open Sys2Proof

/-! ## Reset and waiting -/

/-- R263: a command cut short leaves what the reset event between commands leaves. -/
theorem step_of_resetDuring_event {s : State} {w : Word64} {rest : List HostEvent}
    (hi : s.inputs = .resetDuring w :: rest) :
    step s = .next { State.reset with inputs := rest, responses := s.responses } := by
  simp only [step, hi, accept, resetBlock]

/-- Settles O10: both reset events run `resetBlock`, and every other command appends its one response (O8). -/
theorem resetEventLeavesTheResetState : Obligations.ResetEventLeavesTheResetState := by
  refine ⟨fun s rest => step_of_reset_event, fun s w rest => step_of_resetDuring_event, fun s w rest hi => ?_⟩
  obtain ⟨hone, -⟩ := everyPresentedCommandReturnsOneResponse
  obtain ⟨t, r, ht, hresponses, -⟩ := hone s w rest hi
  exact ⟨t, ht, by simp [hresponses]⟩

/-- Settles O11: the step's own definition at an empty list of events. -/
theorem blockWaitsForACommand : Obligations.BlockWaitsForACommand := fun s hi => by
  simp only [step, hi]

/-! ## The stale order -/

/-- R27: `ORDV` after a command whose response says it succeeded (O55). -/
theorem ordv_of_success {i : Instr} {s t : State} {r : Word64} (h : exec i s = .next t)
    (hr : t.responses = s.responses ++ [r]) (hok : errBit r = false) : t.ordv = ordvAfter i s.ordv := by
  obtain ⟨hrule, -⟩ := orderValidFlagFollowsItsRule
  obtain ⟨r', hr', -, hsuccess⟩ := hrule i s t h
  obtain rfl : r' = r := by simpa [hr'] using hr
  exact hsuccess hok

/-- R27: only the two commands that sort take `ORDV` from 0 to 1. -/
theorem sorts_of_ordvAfter_false {i : Instr} (h : ordvAfter i false = true) : i = .srkSort ∨ i = .bwtFwd := by
  cases i with
  | srkSort => exact .inl rfl
  | bwtFwd => exact .inr rfl
  | setr reg x => simp [ordvAfter] at h
  | nop | reset | clr | clrerr | getr _ | putb _ | getb | srkRdord _ | srkChr | srkCmp | srkCmpr | bwtInv | mtfInit
  | mtfEnc _ | mtfDec _ => cases h

/-- R268: a step after which a stale order is valid again is a command that sorts and succeeds. -/
theorem step_rebuilds_order {s t : State} (h : step s = .next t) (hstale : s.ordv = false) (hvalid : t.ordv = true) :
    ∃ w rest r, s.inputs = .command w :: rest ∧ (decode w = .ok .srkSort ∨ decode w = .ok .bwtFwd) ∧
      t.responses = s.responses ++ [r] ∧ errBit r = false := by
  match hi : s.inputs with
  | [] =>
    rw [blockWaitsForACommand s hi] at h
    cases h
    simp [hstale] at hvalid
  | .reset :: rest =>
    rw [step_of_reset_event hi] at h
    cases h
    cases hvalid
  | .resetDuring w :: rest =>
    rw [step_of_resetDuring_event hi] at h
    cases h
    cases hvalid
  | .command w :: rest =>
    rcases step_command_cases hi h with ⟨c, rfl⟩ | ⟨i, v, u, hd, hu, rfl⟩
    · simp [hstale] at hvalid
    · have hordv := change_ordv (change_of_effect hu)
      simp only [hstale] at hordv
      obtain ⟨hresponses, -⟩ := effect_responses_inputs hu
      refine ⟨w, rest, rspOk v, rfl, ?_, by simp [hresponses], errBit_rspOk v⟩
      rcases sorts_of_ordvAfter_false (hordv.symm.trans hvalid) with rfl | rfl
      · exact .inl hd
      · exact .inr hd

/-- Settles O58: the three changes clear `ORDV`, the read of a stale order is refused, and only a sort makes it valid. -/
theorem changedInputMakesTheOrderStale : Obligations.ChangedInputMakesTheOrderStale := by
  refine ⟨fun i s t r hi h hr hok => ?_, fun s k hstale => ?_, fun s t => step_rebuilds_order⟩
  · rw [ordv_of_success h hr hok]
    rcases hi with ⟨x, rfl⟩ | ⟨v, rfl⟩ | rfl <;> rfl
  · exact exec_srkRdord_refused (if_pos hstale)

end Sys2Proof.Machine
end
